-- ==== Sys2Proof/Word.lean ====
section
/-! DEFINITION. Word widths, and the three transaction formats in which everything reaches the block (R8, R59). -/

namespace Sys2Proof

/-- A 64-bit register or bus word (R6: UPTIME, deadlines, waker tokens and handles are 64 bits). -/
abbrev Word := BitVec 64

/-- A 32-bit half of a register, and a CMD word (R39, R60). -/
abbrev Half := BitVec 32

/-- Eight bits: a status field, a byte of the window. -/
abbrev Byte := BitVec 8

/-- A slot's generation counter (R28). -/
abbrev Gen := BitVec 48

/-- `MAX64` of R8. -/
abbrev max64 : Nat := 2 ^ 64 - 1

/-- The kind of a bus access (R68). -/
inductive AccessKind where
  | ld
  | st
  deriving DecidableEq, Repr

/-- Which 32-bit half of a 64-bit register (R39): `lo` is bits [31:0] at the register's offset, `hi` is bits
[63:32] at the offset plus 4. -/
inductive HalfSel where
  | lo
  | hi
  deriving DecidableEq, Repr

/-- The three transaction formats of R59 and no others: a CMD word (written to offset 0x08), a TICK event and a bus
access, the last as a load and a store. Offsets and sizes are any natural numbers (R40, R68); the data of a store of
more than 8 bytes, which no rule reads, shows its low 8 bytes only (log 11). -/
inductive Transaction where
  /-- A 32-bit word written to CMD (R60). -/
  | cmdWord (w : Half)
  /-- One event on the tick input with the raw counter value (R67). -/
  | tickEvent (raw : Word)
  /-- `MemRead(off, n)` (R41). -/
  | load (off n : Nat)
  /-- `MemWrite(off, n, v)` (R44). -/
  | store (off n : Nat) (v : Word)
  deriving DecidableEq, Repr

/-- A date and time as it travels in ARG0..ARG2 and RES0..RES2 (R64). -/
structure DateWords where
  /-- DAY[63:56], MONTH[55:48], YEAR[47:0]. -/
  dt0 : Word
  /-- reserved[63:24], SECOND[23:16], MINUTE[15:8], HOUR[7:0]. -/
  dt1 : Word
  /-- SUBSEC, a count of ticks within the second. -/
  dt2 : Word
  deriving DecidableEq, Repr

end Sys2Proof
end

