-- ==== Sys2Proof/Config.lean ====
section
/-! DEFINITION. The configuration parameters of R6 and R37, fixed from reset on. Their legal ranges are
`Config.legal` in Machine/Platform.lean. -/

namespace Sys2Proof

/-- How a TICK advances UPTIME (R6, D13). -/
inductive IncMode where
  /-- Add P. -/
  | period
  /-- Add the raw counter's delta modulo 2^W. -/
  | delta
  deriving DecidableEq, Repr

/-- The parameters a model takes as arguments (R6), and the platform's window base (R37). -/
structure Config where
  /-- `F`, ticks per second of UPTIME; read at FREQ. -/
  freq : Word
  /-- `EPOCH_OFFSET`, seconds from 1970-01-01T00:00:00 UTC to UPTIME = 0; read at EPOCH. -/
  epoch : Word
  /-- `W`, the width of the raw counter. -/
  rawWidth : Nat
  /-- `INC_MODE`. -/
  incMode : IncMode
  /-- `P`, ticks added per TICK in PERIOD mode; read at PERIOD. -/
  period : Word
  /-- `N_SLOTS`, the number of alarm slots. -/
  nSlots : Nat
  /-- `RAW_AT_RESET`, the raw counter's value sampled by the reset: a draw (R128). -/
  rawAtReset : Word
  /-- `BASE`, the bus address of the register window (R37). -/
  base : Nat
  deriving DecidableEq, Repr

/-- The default configuration of 95_test_vectors.md; RAW_AT_RESET (unused in PERIOD mode) and BASE, which it does
not give, are 0. DESIGN CHOICE, unsafe for a claim about `State.reset` alone: log 2. -/
def Config.default : Config where
  freq := 1000
  epoch := 0
  rawWidth := 16
  incMode := .period
  period := 1
  nSlots := 4
  rawAtReset := 0
  base := 0

end Sys2Proof
end

