-- ==== Sys2Proof/Syntax.lean ====
section
/-! DEFINITION. The instructions: one constructor per row of spec/opcode_table.json. -/

namespace Sys2Proof

/-- What one atomic step of the block performs when a transaction arrives (R49, R59). -/
inductive Instr where
  /-- NOW, CMD word 0x01 (R77). -/
  | now
  /-- ELAPSED, CMD word 0x02 (R78). -/
  | elapsed
  /-- TO_DATETIME, CMD word 0x03 (R90). -/
  | toDatetime
  /-- FROM_DATETIME, CMD word 0x04 (R91). -/
  | fromDatetime
  /-- CLOCK_NOW, CMD word 0x05 (R92). -/
  | clockNow
  /-- WAIT_UNTIL, CMD word 0x06 (R98). -/
  | waitUntil
  /-- WAIT_FOR, CMD word 0x07 (R99). -/
  | waitFor
  /-- CANCEL, CMD word 0x08 (R100). -/
  | cancel
  /-- ILLEGAL_COMMAND: any other CMD word (R62). -/
  | illegalCommand (w : Half)
  /-- TICK(raw) on the tick input (R71). -/
  | tick (raw : Word)
  /-- LD64 @0x00, the UPTIME read (R74). -/
  | ld64Uptime
  /-- LD32 @0x00 or @0x04, one half of UPTIME (R43). -/
  | ld32Uptime (half : HalfSel)
  /-- LD64 @off, any other aligned 8-byte read (R41). -/
  | ld64 (off : Nat)
  /-- LD32 @off, any other aligned 4-byte read (R41). -/
  | ld32 (off : Nat)
  /-- ST64 of ARGk (R45). -/
  | st64Arg (k : Fin 3) (v : Word)
  /-- ST32 of one half of ARGk (R45). -/
  | st32Arg (k : Fin 3) (half : HalfSel) (v : Half)
  /-- ST32 @0x08: issue a command (R46). -/
  | st32Cmd (w : Half)
  /-- ST at any other aligned offset (R44). -/
  | stOther (off n : Nat) (v : Word)
  /-- Any access whose size is not 4 or 8 or whose offset is misaligned (R40). -/
  | badAccess (kind : AccessKind) (off n : Nat) (v : Word)
  deriving DecidableEq, Repr

end Sys2Proof
end

