-- ==== Sys2Proof/Machine/State.lean ====
section
/-! DEFINITION. The state of the block (10_state.md), its reset, and the reasons a step can stop. -/

namespace Sys2Proof.Machine

/-- The state of an alarm slot (R27). -/
inductive SlotState where
  | free
  | pending
  deriving DecidableEq, Repr

/-- An entry of the alarm slot file (R27) with its generation counter `GEN[s]` (R28). -/
structure Slot where
  state : SlotState
  deadline : Word
  waker : Word
  gen : Gen
  deriving DecidableEq, Repr

/-- A slot after reset (R35). -/
def Slot.empty : Slot := ⟨.free, 0#64, 0#64, 0#48⟩

/-- One event of the WAKE output port (R115). -/
structure Wake where
  waker : Word
  handle : Word
  deriving DecidableEq, Repr

/-- The data a read returns (R41): a whole register or one half. -/
inductive Reply where
  | word (v : Word)
  | half (v : Half)
  deriving DecidableEq, Repr

/-- What can arrive at the block next (R49): a transaction, or a reset, which takes its configuration, the draw
RAW_AT_RESET among it, as fixed from then on (R124, log 7). -/
inductive Event where
  | transaction (t : Transaction)
  | reset (c : Config)
  deriving DecidableEq, Repr

/-- The state vector of R17, the configuration of R6, and two fields of the model's own: `readLog` (log 3) and
`inputs` (log 1). -/
structure State where
  /-- The configuration (R6); FREQ, EPOCH, PERIOD and INFO are views of it (R25, R26). -/
  cfg : Config
  /-- UPTIME (R18). -/
  uptime : Word
  /-- LAST_RAW, in the low W bits (R20). -/
  lastRaw : Word
  /-- ARG0, ARG1, ARG2 (R21). -/
  arg0 : Word
  arg1 : Word
  arg2 : Word
  /-- RES0, RES1, RES2, RES3 (R22). -/
  res0 : Word
  res1 : Word
  res2 : Word
  res3 : Word
  /-- STATUS.CODE and STATUS.LAST_OP (R23). -/
  code : Byte
  lastOp : Byte
  /-- SLOT[0 .. N_SLOTS-1] and GEN[0 .. N_SLOTS-1] (R27, R28). -/
  slots : List Slot
  /-- WAKE_LOG, oldest first (R33). -/
  wakeLog : List Wake
  /-- The data words returned by the reads so far, oldest first. The model's own. -/
  readLog : List Reply
  /-- What arrives from here on, in the total order of R49. The model's own. -/
  inputs : List Event
  deriving DecidableEq, Repr

/-- Why a step ends in a fault. -/
inductive Fault where
  /-- `raise BusError(off)`: a fault of the issuing agent, with no state change and no data (R47). Raised by every
  access of R110. Safe: the block itself would go on, from the same state (log 4). -/
  | busError (off : Nat)
  deriving DecidableEq, Repr

/-- Why a step is refused. -/
inductive Refusal where
  /-- An instruction without a meaning, by its mnemonic: raised by no arm of `exec`. Safe. -/
  | notModelled (mnemonic : String)
  /-- A configuration outside the legal ranges (R7): raised by a reset that brings one and by a step of a state that
  holds one. Safe. -/
  | illegalConfiguration
  deriving DecidableEq, Repr

/-- The machine right after a reset that takes configuration `c` (R35, R124). -/
def State.resetOf (c : Config) : State where
  cfg := c
  uptime := 0#64
  lastRaw := match c.incMode with
    | .period => 0#64
    | .delta => c.rawAtReset
  arg0 := 0#64
  arg1 := 0#64
  arg2 := 0#64
  res0 := 0#64
  res1 := 0#64
  res2 := 0#64
  res3 := 0#64
  code := 0#8
  lastOp := 0#8
  slots := List.replicate c.nSlots Slot.empty
  wakeLog := []
  readLog := []
  inputs := []

/-- The machine right after reset, in the default configuration (log 2). -/
def State.reset : State := State.resetOf Config.default

end Sys2Proof.Machine
end

