-- ==== Sys2Proof/Machine/Flags.lean ====
section
/-! DEFINITION. STATUS, the block's only condition indicator (R31): the codes of R65 and `finish` of R10. -/

namespace Sys2Proof.Machine

/-- The codes of R65. -/
def codeOk : Byte := 0x00#8
def codeReady : Byte := 0x01#8
def codeIllegalCommand : Byte := 0x80#8
def codeInvalidDeadline : Byte := 0x81#8
def codeOutOfRange : Byte := 0x82#8
def codeNoSlot : Byte := 0x83#8

/-- `finish(CODE)` for a command whose opcode byte is `op` (R10). -/
def State.finish (s : State) (op code : Byte) : State := { s with code := code, lastOp := op }

end Sys2Proof.Machine
end

