-- ==== Sys2Proof/WellFormed.lean ====
section
/-! DEFINITION. Which terms of `Instr`, and which transactions, the encodings of the spec can carry. -/

namespace Sys2Proof

/-- R40: a size of 4 or 8 bytes and natural alignment. -/
abbrev AlignedAccess (off n : Nat) : Prop := (n = 4 ∨ n = 8) ∧ off % n = 0

/-- R62: the reserved bits [31:8] are not all 0, or OPCODE is 0x00 or lies in 0x09..0xFF. -/
abbrev IllegalWord (w : Half) : Prop := w >>> 8 ≠ 0#32 ∨ w.setWidth 8 = 0#8 ∨ 9#8 ≤ w.setWidth 8

/-- A store carries exactly n bytes (R68), so a 4-byte one has nothing above bit 31. -/
abbrev FitsSize (n : Nat) (v : Word) : Prop := n = 4 → v.toNat < 2 ^ 32

/-- A term that stands for some transaction: each row's own offsets, sizes and words (R40, R41, R44, R62). The
offsets 0x00 and 0x04 of a load have rows of their own (log 5). -/
def Instr.wellFormed : Instr → Bool
  | .illegalCommand w => decide (IllegalWord w)
  | .ld64 off => decide (off % 8 = 0 ∧ off ≠ 0)
  | .ld32 off => decide (off % 4 = 0 ∧ off ≠ 0 ∧ off ≠ 4)
  | .stOther off n v =>
    decide (AlignedAccess off n ∧ ¬(off = 8 ∧ n = 4) ∧ ¬(0x20 ≤ off ∧ off < 0x38) ∧ FitsSize n v)
  | .badAccess kind off n v => decide (¬AlignedAccess off n ∧ FitsSize n v ∧ (kind = .ld → v = 0#64))
  | .now | .elapsed | .toDatetime | .fromDatetime | .clockNow | .waitUntil | .waitFor | .cancel => true
  | .tick _ | .ld64Uptime | .ld32Uptime _ | .st64Arg _ _ | .st32Arg _ _ _ | .st32Cmd _ => true

/-- A transaction the formats of R59 can carry: a store's data fits its size. -/
def Transaction.legal : Transaction → Bool
  | .store _ n v => decide (FitsSize n v)
  | .cmdWord _ | .tickEvent _ | .load _ _ => true

end Sys2Proof
end

