-- ==== Sys2Proof/Decode.lean ====
section
/-! DEFINITION. The decoder, total on every transaction, and the encoder, both written from 30_encoding.md and
20_memory.md. Nothing is rejected outside the table: an illegal CMD word is the row ILLEGAL_COMMAND (R62), a bad
access the rows ST (other) and BAD_ACCESS (R40, R44). -/

namespace Sys2Proof

/-- R61, R62: a CMD word names a command only when all 32 bits match. -/
def decodeCommand (w : Half) : Instr :=
  if w = 0x00000001#32 then .now
  else if w = 0x00000002#32 then .elapsed
  else if w = 0x00000003#32 then .toDatetime
  else if w = 0x00000004#32 then .fromDatetime
  else if w = 0x00000005#32 then .clockNow
  else if w = 0x00000006#32 then .waitUntil
  else if w = 0x00000007#32 then .waitFor
  else if w = 0x00000008#32 then .cancel
  else .illegalCommand w

/-- A read (R41): UPTIME's own rows first, then the rows of every other offset. -/
def decodeLoad (off n : Nat) : Instr :=
  if ¬AlignedAccess off n then .badAccess .ld off n 0#64
  else if n = 8 then (if off = 0x00 then .ld64Uptime else .ld64 off)
  else if off = 0x00 then .ld32Uptime .lo
  else if off = 0x04 then .ld32Uptime .hi
  else .ld32 off

/-- The half an aligned 4-byte access reaches (R39). -/
def halfOf (off : Nat) : HalfSel := if off % 8 = 0 then .lo else .hi

/-- The data a store of n bytes carries (R68): a 4-byte one is v[31:0]. -/
def storeData (n : Nat) (v : Word) : Word := if n = 4 then (v.setWidth 32).setWidth 64 else v

/-- A write (R44): CMD, the ARG registers, and every other offset. -/
def decodeStore (off n : Nat) (v : Word) : Instr :=
  if ¬AlignedAccess off n then .badAccess .st off n (storeData n v)
  else if off = 0x08 ∧ n = 4 then .st32Cmd (v.setWidth 32)
  else if h : 0x20 ≤ off ∧ off < 0x38 then
    if n = 8 then .st64Arg ⟨(off - 0x20) / 8, by omega⟩ v
    else .st32Arg ⟨(off - 0x20) / 8, by omega⟩ (halfOf off) (v.setWidth 32)
  else .stOther off n (storeData n v)

/-- The instruction a transaction stands for (R59). -/
def decode : Transaction → Instr
  | .cmdWord w => decodeCommand w
  | .tickEvent raw => .tick raw
  | .load off n => decodeLoad off n
  | .store off n v => decodeStore off n v

/-- The offset of ARGk (R38). -/
def argOffset (k : Fin 3) : Nat := 0x20 + 8 * k.val

/-- The offset of a half within its register (R39). -/
def halfOffset : HalfSel → Nat
  | .lo => 0
  | .hi => 4

/-- The transaction of an instruction (R60, R61, R67, R68). -/
def encode : Instr → Transaction
  | .now => .cmdWord 0x00000001#32
  | .elapsed => .cmdWord 0x00000002#32
  | .toDatetime => .cmdWord 0x00000003#32
  | .fromDatetime => .cmdWord 0x00000004#32
  | .clockNow => .cmdWord 0x00000005#32
  | .waitUntil => .cmdWord 0x00000006#32
  | .waitFor => .cmdWord 0x00000007#32
  | .cancel => .cmdWord 0x00000008#32
  | .illegalCommand w => .cmdWord w
  | .tick raw => .tickEvent raw
  | .ld64Uptime => .load 0x00 8
  | .ld32Uptime half => .load (halfOffset half) 4
  | .ld64 off => .load off 8
  | .ld32 off => .load off 4
  | .st64Arg k v => .store (argOffset k) 8 v
  | .st32Arg k half v => .store (argOffset k + halfOffset half) 4 (v.setWidth 64)
  | .st32Cmd w => .store 0x08 4 (w.setWidth 64)
  | .stOther off n v => .store off n v
  | .badAccess .ld off n _ => .load off n
  | .badAccess .st off n v => .store off n v

/-- The transaction of a table word of `nbits` bits: the table gives bits to the CMD words only, and a CMD word is 32
bits, those above `nbits` zero (log 10). -/
def tableTransaction (nbits w : Nat) : Option Transaction :=
  if nbits ≤ 32 then some (.cmdWord (BitVec.ofNat 32 (w % 2 ^ nbits))) else none

/-- The instruction the decoder reads from a table word. -/
def decodeTableWord (nbits w : Nat) : Option Instr := (tableTransaction nbits w).map decode

end Sys2Proof
end

