-- ==== Sys2Proof/Machine/Operands.lean ====
section
/-! DEFINITION. Operand forms: ARG registers and their halves, the registers of the window and their bytes, the
packed words (handle, STATUS, INFO). -/

namespace Sys2Proof.Machine

/-- One half of a register (R39). -/
def selectHalf (half : HalfSel) (v : Word) : Half :=
  match half with
  | .lo => v.extractLsb' 0 32
  | .hi => v.extractLsb' 32 32

/-- A register with one half replaced (R45). -/
def replaceHalf (half : HalfSel) (old : Word) (v : Half) : Word :=
  match half with
  | .lo => selectHalf .hi old ++ v
  | .hi => v ++ selectHalf .lo old

/-- The low `width` bits of a raw counter value (R9, R67). -/
def lowBits (width : Nat) (v : Word) : Word := BitVec.ofNat 64 (v.toNat % 2 ^ width)

/-- ARGk (R21). -/
def State.arg (s : State) (k : Fin 3) : Word :=
  match k with
  | 0 => s.arg0
  | 1 => s.arg1
  | 2 => s.arg2

/-- `R[ARGk] <- v` (R45). -/
def State.setArg (s : State) (k : Fin 3) (v : Word) : State :=
  match k with
  | 0 => { s with arg0 := v }
  | 1 => { s with arg1 := v }
  | 2 => { s with arg2 := v }

/-- STATUS (R23): reserved bits 0, LAST_OP, CODE. -/
def State.statusWord (s : State) : Word := (0#48 ++ s.lastOp) ++ s.code

/-- INC_MODE as INFO shows it (R26). -/
def incModeBit : IncMode → BitVec 1
  | .period => 0#1
  | .delta => 1#1

/-- INFO (R26): N_SLOTS[47:16], INC_MODE[7], RAW_WIDTH[6:0], all else 0. -/
def infoWord (c : Config) : Word :=
  (((0#16 ++ BitVec.ofNat 32 c.nSlots) ++ 0#8) ++ incModeBit c.incMode) ++ BitVec.ofNat 7 c.rawWidth

/-- The value a read of the register in the 8-byte slot at offset `8 * i` returns (R38, R42); none where no readable
register is (CMD, the reserved slots, outside the window). -/
def State.windowReg (s : State) (i : Nat) : Option Word :=
  match i with
  | 0x0 => some s.uptime
  | 0x2 => some s.statusWord
  | 0x4 => some s.arg0
  | 0x5 => some s.arg1
  | 0x6 => some s.arg2
  | 0x8 => some s.res0
  | 0x9 => some s.res1
  | 0xA => some s.res2
  | 0xB => some s.res3
  | 0xC => some s.cfg.freq
  | 0xD => some s.cfg.epoch
  | 0xE => some s.cfg.period
  | 0xF => some (infoWord s.cfg)
  | _ => none

/-- Byte `i` of a register (R39). -/
def byteOf (v : Word) (i : Nat) : Byte := v.extractLsb' (8 * i) 8

/-- The byte of the window at an offset, little-endian (R39): the model's read of one byte, for statements (log 14).
The block itself offers no 1-byte access (R40). -/
def State.windowByte (s : State) (off : Nat) : Option Byte := (s.windowReg (off / 8)).map (byteOf · (off % 8))

/-- A registration handle (R66): GEN[63:16], SLOT[15:0]. -/
def handleOf (gen : Gen) (i : Nat) : Word := gen ++ BitVec.ofNat 16 i

/-- The SLOT field of a handle (R66). -/
def handleSlot (h : Word) : Nat := (h.extractLsb' 0 16).toNat

/-- The GEN field of a handle (R66). -/
def handleGen (h : Word) : Gen := h.extractLsb' 16 48

/-- `SLOT[s]` and `GEN[s]` (R10). -/
def State.slot (s : State) (i : Nat) : Slot := s.slots.getD i Slot.empty

end Sys2Proof.Machine
end

