-- ==== Sys2Proof/Machine/Ops.lean ====
section
/-! DEFINITION. The named operations over registers, the window and the slot file. The block takes no trap and saves
nothing (R103, R116), so there is no exception entry and no return from one; an access that ends in BusError is
`busFault`. -/

namespace Sys2Proof.Machine

/-- The outcome of one step. -/
abbrev Outcome := Host.Outcome State Fault Refusal

/-- `raise BusError(off)` (R47). -/
def busFault (off : Nat) : Outcome := .fault (.busError off)

/-- The data of a successful read goes out on the bus; no state of the block changes (R41, R48). -/
def State.reply (s : State) (r : Reply) : State := { s with readLog := s.readLog ++ [r] }

/-- `MemRead(off, n)` (R41), none for BusError. -/
def State.memRead (s : State) (off n : Nat) : Option Reply :=
  if ¬AlignedAccess off n ∨ 0x80 ≤ off then none
  else if 0x08 ≤ off ∧ off < 0x10 then none
  else if (0x18 ≤ off ∧ off < 0x20) ∨ (0x38 ≤ off ∧ off < 0x40) then none
  else match s.windowReg (off / 8) with
    | none => none
    | some v => some (if n = 8 then .word v else .half (selectHalf (halfOf off) v))

/-- A read access, with its reply or its BusError. -/
def busLoad (off n : Nat) (s : State) : Outcome :=
  match s.memRead off n with
  | some r => .next (s.reply r)
  | none => busFault off

/-- `write_arg` of R45 on the whole register and on one half. -/
def State.writeArg (s : State) (k : Fin 3) (v : Word) : State := s.setArg k v

def State.writeArgHalf (s : State) (k : Fin 3) (half : HalfSel) (v : Half) : State :=
  s.setArg k (replaceHalf half (s.arg k) v)

/-- The sum of UPTIME and an increment, saturating at MAX64 (R71, R79). -/
def saturatingAdd (u : Word) (inc : Nat) : Word := BitVec.ofNat 64 (min (u.toNat + inc) max64)

/-- The lowest-indexed FREE slot (R93), none when every slot is PENDING. -/
def firstFree : List Slot → Option Nat
  | [] => none
  | x :: xs =>
    match x.state with
    | .free => some 0
    | .pending => (firstFree xs).map (· + 1)

/-- The generation of a slot's next registration, skipping 0 (R93). -/
def nextGen (g : Gen) : Gen := if g = BitVec.ofNat 48 (2 ^ 48 - 1) then 1#48 else g + 1#48

/-- `allocate` of R93 on the free slot `i`: the new state. -/
def State.allocate (s : State) (i : Nat) (target waker : Word) : State :=
  { s with slots := s.slots.set i ⟨.pending, target, waker, nextGen (s.slot i).gen⟩ }

/-- The handle of the registration in slot `i` (R66, R93). -/
def State.handle (s : State) (i : Nat) : Word := handleOf (s.slot i).gen i

/-- A slot after `release` (R93): DEADLINE, WAKER and GEN keep their bits. -/
def Slot.released (x : Slot) : Slot := { x with state := .free }

/-- `release(i)` of R93. -/
def State.release (s : State) (i : Nat) : State := { s with slots := s.slots.set i (s.slot i).released }

/-- R94: the slot is PENDING and its DEADLINE is reached, by unsigned comparison. -/
abbrev Slot.due (u : Word) (x : Slot) : Prop := x.state = .pending ∧ x.deadline ≤ u

/-- A slot after `fire()` (R94). -/
def Slot.fired (u : Word) (x : Slot) : Slot := if x.due u then x.released else x

/-- The WAKE events of `fire()` over the slots from index `i` on, in ascending slot order (R94). -/
def wakesFrom (u : Word) (i : Nat) : List Slot → List Wake
  | [] => []
  | x :: xs =>
    if x.due u then ⟨x.waker, handleOf x.gen i⟩ :: wakesFrom u (i + 1) xs else wakesFrom u (i + 1) xs

/-- `fire()`, the comparison engine (R94). -/
def State.fire (s : State) : State :=
  { s with slots := s.slots.map (Slot.fired s.uptime), wakeLog := s.wakeLog ++ wakesFrom s.uptime 0 s.slots }

end Sys2Proof.Machine
end

