-- ==== Sys2Proof/Machine/Alarm.lean ====
section
/-! DEFINITION. The alarm family (42_alarm.md): WAIT_UNTIL, WAIT_FOR, CANCEL. -/

namespace Sys2Proof.Machine

/-- The body of WAIT_UNTIL (R98), shared by WAIT_FOR (R99) with its own opcode byte: READY before NO_SLOT (R112). -/
def State.wait (s : State) (op : Byte) (target waker : Word) : State :=
  if target ≤ s.uptime then State.finish { s with res0 := 0#64, res1 := target } op codeReady
  else match firstFree s.slots with
    | none => s.finish op codeNoSlot
    | some i =>
      let a := s.allocate i target waker
      State.finish { a with res0 := a.handle i, res1 := target } op codeOk

/-- WAIT_UNTIL (R98). -/
def execWaitUntil (s : State) : Outcome := .next (s.wait 0x06#8 s.arg0 s.arg1)

/-- WAIT_FOR (R99): the sum is exact, and checked first (R112). -/
def execWaitFor (s : State) : Outcome :=
  if max64 < s.uptime.toNat + s.arg0.toNat then .next (s.finish 0x07#8 codeInvalidDeadline)
  else .next (s.wait 0x07#8 (s.uptime + s.arg0) s.arg1)

/-- R100: the handle is that of a pending registration. -/
abbrev State.Live (s : State) (h : Word) : Prop :=
  handleSlot h < s.cfg.nSlots ∧ (s.slot (handleSlot h)).state = .pending ∧ (s.slot (handleSlot h)).gen = handleGen h

/-- CANCEL (R100). -/
def execCancel (s : State) : Outcome :=
  if s.Live s.arg0 then .next (State.finish { s.release (handleSlot s.arg0) with res0 := 1#64 } 0x08#8 codeOk)
  else .next (State.finish { s with res0 := 0#64 } 0x08#8 codeOk)

end Sys2Proof.Machine
end

