-- ==== Sys2Proof/Machine/Calendar.lean ====
section
/-! DEFINITION. The calendar functions of 41_clock.md, on natural numbers (R8), and the two conversions. -/

namespace Sys2Proof.Machine

/-- R82. -/
def isLeap (y : Nat) : Bool := (y % 4 == 0 && y % 100 != 0) || y % 400 == 0

/-- R82. -/
def yearDays (y : Nat) : Nat := if isLeap y then 366 else 365

/-- R83; 0 for a number that is no month, which no rule reads. -/
def monthDays (y m : Nat) : Nat :=
  match m with
  | 1 => 31
  | 2 => if isLeap y then 29 else 28
  | 3 => 31
  | 4 => 30
  | 5 => 31
  | 6 => 30
  | 7 => 31
  | 8 => 31
  | 9 => 30
  | 10 => 31
  | 11 => 30
  | 12 => 31
  | _ => 0

/-- `Dn` of R84: days in the years 1..n. -/
def daysInYears (n : Nat) : Nat := 365 * n + n / 4 - n / 100 + n / 400

/-- R84: days from 1970-01-01 to y-01-01, for y at least 1970; the difference is taken on integers. -/
def daysBeforeYear (y : Nat) : Nat := ((daysInYears (y - 1) : Int) - daysInYears 1969).toNat

/-- R85: the sum of the month lengths before month m. -/
def daysBeforeMonth (y : Nat) : Nat → Nat
  | 0 => 0
  | m + 1 => daysBeforeMonth y m + monthDays y m

/-- The `days_of` of R86. -/
def daysOf (y m d : Nat) : Nat := daysBeforeYear y + daysBeforeMonth y m + d - 1

/-- The year of R86, by the cycles of 146097, 36524, 1461 and 365 days counted from year 1. DEDUCED, safe: R86 admits
any algorithm with the same values (log 8). -/
def yearOf (d : Nat) : Nat :=
  let n := d + daysInYears 1969
  let centuries := min (n % 146097 / 36524) 3
  let r := n % 146097 - 36524 * centuries
  let years := min (r % 1461 / 365) 3
  400 * (n / 146097) + 100 * centuries + 4 * (r / 1461) + years + 1

/-- The largest month in 1..m whose `daysBeforeMonth` is at most `doy` (R86). -/
def monthSearch (y doy : Nat) : Nat → Nat
  | 0 => 1
  | m + 1 => if daysBeforeMonth y (m + 1) ≤ doy then m + 1 else monthSearch y doy m

/-- `civil(d) = (year, month, day)` of R86. -/
def civil (d : Nat) : Nat × Nat × Nat :=
  let y := yearOf d
  let doy := d - daysBeforeYear y
  let m := monthSearch y doy 12
  (y, m, doy - daysBeforeMonth y m + 1)

/-- DT0 (R64, R87). -/
def packDate (y m d : Nat) : Word := (BitVec.ofNat 8 d ++ BitVec.ofNat 8 m) ++ BitVec.ofNat 48 y

/-- DT1 (R64, R87) of a second of the day. -/
def packTime (sod : Nat) : Word :=
  ((0#40 ++ BitVec.ofNat 8 (sod % 60)) ++ BitVec.ofNat 8 (sod % 3600 / 60)) ++ BitVec.ofNat 8 (sod / 3600)

/-- `S` of R87: whole seconds since 1970-01-01T00:00:00 UTC at uptime `u`. -/
def secondsAt (c : Config) (u : Word) : Nat := c.epoch.toNat + u.toNat / c.freq.toNat

/-- `to_fields(u)` (R87). -/
def toFields (c : Config) (u : Word) : DateWords :=
  let s := secondsAt c u
  let date := civil (s / 86400)
  { dt0 := packDate date.1 date.2.1 date.2.2
    dt1 := packTime (s % 86400)
    dt2 := BitVec.ofNat 64 (u.toNat % c.freq.toNat) }

/-- The fields of R64. -/
def dtYear (d : DateWords) : Nat := (d.dt0.extractLsb' 0 48).toNat
def dtMonth (d : DateWords) : Nat := (d.dt0.extractLsb' 48 8).toNat
def dtDay (d : DateWords) : Nat := (d.dt0.extractLsb' 56 8).toNat
def dtHour (d : DateWords) : Nat := (d.dt1.extractLsb' 0 8).toNat
def dtMinute (d : DateWords) : Nat := (d.dt1.extractLsb' 8 8).toNat
def dtSecond (d : DateWords) : Nat := (d.dt1.extractLsb' 16 8).toNat
def dtReserved (d : DateWords) : Nat := (d.dt1.extractLsb' 24 40).toNat

/-- `valid(DT0, DT1, DT2)` (R88). -/
abbrev ValidDate (c : Config) (d : DateWords) : Prop :=
  1970 ≤ dtYear d ∧ 1 ≤ dtMonth d ∧ dtMonth d ≤ 12 ∧ 1 ≤ dtDay d ∧ dtDay d ≤ monthDays (dtYear d) (dtMonth d) ∧
    dtHour d ≤ 23 ∧ dtMinute d ≤ 59 ∧ dtSecond d ≤ 59 ∧ dtReserved d = 0 ∧ d.dt2.toNat < c.freq.toNat

/-- `S` of R89. -/
def secondsOf (d : DateWords) : Nat :=
  daysOf (dtYear d) (dtMonth d) (dtDay d) * 86400 + dtHour d * 3600 + dtMinute d * 60 + dtSecond d

/-- `t` of R89, exact. -/
def ticksOf (c : Config) (d : DateWords) : Nat := (secondsOf d - c.epoch.toNat) * c.freq.toNat + d.dt2.toNat

/-- `from_fields` (R89) after the checks of `valid` (R88), none for OUT_OF_RANGE. -/
def fromFields (c : Config) (d : DateWords) : Option Word :=
  if ¬ValidDate c d then none
  else if secondsOf d < c.epoch.toNat then none
  else if max64 < ticksOf c d then none
  else some (BitVec.ofNat 64 (ticksOf c d))

end Sys2Proof.Machine
end

