-- ==== Sys2Proof/Machine/Clock.lean ====
section
/-! DEFINITION. The clock family (41_clock.md): TO_DATETIME, FROM_DATETIME, CLOCK_NOW. -/

namespace Sys2Proof.Machine

/-- RES0..RES2 take the three words of a date (R90, R92). -/
def State.setDate (s : State) (d : DateWords) : State := { s with res0 := d.dt0, res1 := d.dt1, res2 := d.dt2 }

/-- TO_DATETIME (R90). -/
def execToDatetime (s : State) : Outcome := .next ((s.setDate (toFields s.cfg s.arg0)).finish 0x03#8 codeOk)

/-- FROM_DATETIME (R91). -/
def execFromDatetime (s : State) : Outcome :=
  match fromFields s.cfg ⟨s.arg0, s.arg1, s.arg2⟩ with
  | none => .next (s.finish 0x04#8 codeOutOfRange)
  | some t => .next (State.finish { s with res0 := t } 0x04#8 codeOk)

/-- CLOCK_NOW (R92). -/
def execClockNow (s : State) : Outcome :=
  .next (State.finish { s.setDate (toFields s.cfg s.uptime) with res3 := s.uptime } 0x05#8 codeOk)

end Sys2Proof.Machine
end

