-- ==== Sys2Proof/Machine/Uptime.lean ====
section
/-! DEFINITION. The uptime family (40_uptime.md): TICK, NOW, ELAPSED and the UPTIME reads. -/

namespace Sys2Proof.Machine

/-- The ticks one TICK adds (R72, R73). The difference is taken modulo 2^64 first, which changes nothing modulo 2^W,
W being at most 64; raw bits above the port's W do not count (log 6). -/
def State.tickIncrement (s : State) (raw : Word) : Nat :=
  match s.cfg.incMode with
  | .period => s.cfg.period.toNat
  | .delta => (raw - s.lastRaw).toNat % 2 ^ s.cfg.rawWidth

/-- LAST_RAW after a TICK: written in DELTA mode only (R71, R72, R73). -/
def State.nextLastRaw (s : State) (raw : Word) : Word :=
  match s.cfg.incMode with
  | .period => s.lastRaw
  | .delta => lowBits s.cfg.rawWidth raw

/-- TICK before its `fire()` (R71). -/
def State.advance (s : State) (raw : Word) : State :=
  { s with uptime := saturatingAdd s.uptime (s.tickIncrement raw), lastRaw := s.nextLastRaw raw }

/-- TICK (R71). -/
def execTick (raw : Word) (s : State) : Outcome := .next (s.advance raw).fire

/-- NOW (R77). -/
def execNow (s : State) : Outcome := .next (State.finish { s with res0 := s.uptime } 0x01#8 codeOk)

/-- The result of ELAPSED (R78). -/
def elapsedSince (u since : Word) : Word := if since ≤ u then u - since else 0#64

/-- ELAPSED (R78). -/
def execElapsed (s : State) : Outcome :=
  .next (State.finish { s with res0 := elapsedSince s.uptime s.arg0 } 0x02#8 codeOk)

/-- LD64 UPTIME (R74). -/
def execLd64Uptime (s : State) : Outcome := busLoad 0x00 8 s

/-- LD32 UPTIME_LO or UPTIME_HI (R43). -/
def execLd32Uptime (half : HalfSel) (s : State) : Outcome := busLoad (halfOffset half) 4 s

end Sys2Proof.Machine
end

