-- ==== Sys2Proof/Machine/Command.lean ====
section
/-! DEFINITION. Issuing a command (R46), and illegal CMD words (R62). -/

namespace Sys2Proof.Machine

/-- ILLEGAL_COMMAND (R62, R105): STATUS only, LAST_OP = word[7:0]. -/
def execIllegalCommand (w : Half) (s : State) : Outcome := .next (s.finish (w.setWidth 8) codeIllegalCommand)

/-- `issue_command(word)` (R46): decode the word and perform that command's rule. A CMD word decodes to no other
constructor (`decodeCommand_cases`), so the last arm is the illegal words'. -/
def issueCommand (w : Half) (s : State) : Outcome :=
  match decodeCommand w with
  | .now => execNow s
  | .elapsed => execElapsed s
  | .toDatetime => execToDatetime s
  | .fromDatetime => execFromDatetime s
  | .clockNow => execClockNow s
  | .waitUntil => execWaitUntil s
  | .waitFor => execWaitFor s
  | .cancel => execCancel s
  | _ => execIllegalCommand w s

end Sys2Proof.Machine
end

