-- ==== Sys2Proof/Machine/Bus.lean ====
section
/-! DEFINITION. The bus accesses (20_memory.md): reads, ARG writes, the CMD write, and the accesses that end in
BusError. -/

namespace Sys2Proof.Machine

/-- `MemWrite(off, n, v)` (R44), legality checked first. The store rows of the table are its cases; that each row's
meaning is this function's is the statement `StoresFollowMemWrite`. -/
def State.memWrite (s : State) (off n : Nat) (v : Word) : Outcome :=
  if ¬AlignedAccess off n ∨ 0x80 ≤ off then busFault off
  else if off = 0x08 ∧ n = 4 then issueCommand (v.setWidth 32) s
  else if h : 0x20 ≤ off ∧ off < 0x38 then
    .next (if n = 8 then s.writeArg ⟨(off - 0x20) / 8, by omega⟩ v
      else s.writeArgHalf ⟨(off - 0x20) / 8, by omega⟩ (halfOf off) (v.setWidth 32))
  else busFault off

/-- LD64 (R41). -/
def execLd64 (off : Nat) (s : State) : Outcome := busLoad off 8 s

/-- LD32 (R41, R43). -/
def execLd32 (off : Nat) (s : State) : Outcome := busLoad off 4 s

/-- ST64 ARGk (R45). -/
def execSt64Arg (k : Fin 3) (v : Word) (s : State) : Outcome := .next (s.writeArg k v)

/-- ST32 ARGk_LO or ARGk_HI (R45). -/
def execSt32Arg (k : Fin 3) (half : HalfSel) (v : Half) (s : State) : Outcome := .next (s.writeArgHalf k half v)

/-- ST32 CMD (R46). -/
def execSt32Cmd (w : Half) (s : State) : Outcome := issueCommand w s

/-- ST at any other offset: BusError (R44, R110). -/
def execStOther (off _n : Nat) (_v : Word) (_s : State) : Outcome := busFault off

/-- A bad size or a misaligned offset: BusError (R40, R110). -/
def execBadAccess (_kind : AccessKind) (off _n : Nat) (_v : Word) (_s : State) : Outcome := busFault off

end Sys2Proof.Machine
end

