-- ==== Sys2Proof/Machine/Dispatch.lean ====
section
/-! DEFINITION. One arm per row of the opcode table. -/

namespace Sys2Proof.Machine

def exec (i : Instr) (s : State) : Host.Outcome State Fault Refusal :=
  match i with
  | .now => Sys2Proof.Machine.execNow s
  | .elapsed => Sys2Proof.Machine.execElapsed s
  | .toDatetime => Sys2Proof.Machine.execToDatetime s
  | .fromDatetime => Sys2Proof.Machine.execFromDatetime s
  | .clockNow => Sys2Proof.Machine.execClockNow s
  | .waitUntil => Sys2Proof.Machine.execWaitUntil s
  | .waitFor => Sys2Proof.Machine.execWaitFor s
  | .cancel => Sys2Proof.Machine.execCancel s
  | .illegalCommand w => Sys2Proof.Machine.execIllegalCommand w s
  | .tick raw => Sys2Proof.Machine.execTick raw s
  | .ld64Uptime => Sys2Proof.Machine.execLd64Uptime s
  | .ld32Uptime half => Sys2Proof.Machine.execLd32Uptime half s
  | .ld64 off => Sys2Proof.Machine.execLd64 off s
  | .ld32 off => Sys2Proof.Machine.execLd32 off s
  | .st64Arg k v => Sys2Proof.Machine.execSt64Arg k v s
  | .st32Arg k half v => Sys2Proof.Machine.execSt32Arg k half v s
  | .st32Cmd w => Sys2Proof.Machine.execSt32Cmd w s
  | .stOther off n v => Sys2Proof.Machine.execStOther off n v s
  | .badAccess kind off n v => Sys2Proof.Machine.execBadAccess kind off n v s

end Sys2Proof.Machine
end

