-- ==== Sys2Proof/Machine/Platform.lean ====
section
/-! DEFINITION. Legal configurations (R6, R7) and where the platform places the window (R37). -/

namespace Sys2Proof

/-- R6, R7, R37: the configurations a machine is built for. RAW_AT_RESET is bounded in DELTA mode only (log 16);
values of 64 bits are below 2^64 by their type. -/
def Config.legal (c : Config) : Bool :=
  decide (c.freq ≠ 0#64 ∧ c.period ≠ 0#64 ∧ 1 ≤ c.rawWidth ∧ c.rawWidth ≤ 64 ∧ 1 ≤ c.nSlots ∧ c.nSlots ≤ 65536 ∧
    (c.incMode = .delta → c.rawAtReset.toNat < 2 ^ c.rawWidth) ∧ c.base % 8 = 0)

/-- The window offset of a bus address (R37), none for an address below BASE, which no access to the block has. -/
def Config.offsetOf (c : Config) (addr : Nat) : Option Nat := if c.base ≤ addr then some (addr - c.base) else none

end Sys2Proof
end

