-- ==== Sys2Proof/Machine/Input.lean ====
section
/-! DEFINITION. Taking the next arrival (R49): a transaction is decoded and executed, a reset is performed. -/

namespace Sys2Proof.Machine

/-- Reset (R124), taking configuration `c` as fixed from here on; an illegal one is refused (R7). What arrives
afterwards is the environment's and stays (log 7). -/
def resetStep (c : Config) (s : State) : Outcome :=
  if c.legal then .next { State.resetOf c with inputs := s.inputs } else .refused .illegalConfiguration

/-- One atomic step of the block for one arrival (R13, R49). -/
def takeEvent (e : Event) (s : State) : Outcome :=
  match e with
  | .transaction t => exec (decode t) s
  | .reset c => resetStep c s

/-- The next arrival's step; with none waiting the block idles, unchanged (log 1). No machine is built for an illegal
configuration (R7, log 9). -/
def takeNext (s : State) : Outcome :=
  if s.cfg.legal then
    match s.inputs with
    | [] => .next s
    | e :: rest => takeEvent e { s with inputs := rest }
  else .refused .illegalConfiguration

/-- The state with a table word's transaction arriving next (log 10). -/
def State.arrive (s : State) (nbits w : Nat) : State :=
  match tableTransaction nbits w with
  | none => s
  | some t => { s with inputs := .transaction t :: s.inputs }

end Sys2Proof.Machine
end

