-- ==== Sys2Proof/Machine/Step.lean ====
section
/-! DEFINITION. One step of the machine. -/

namespace Sys2Proof.Machine

/-- One step: the block takes the next arrival. -/
def step : State → Host.Outcome State Fault Refusal := takeNext

/-- The state in which the given CMD word is the next arrival. -/
def State.withFetchWord (s : State) (nbits w : Nat) : State := s.arrive nbits w

end Sys2Proof.Machine
end

