-- ==== Sys2Proof/Safety.lean ====
section
/-! DEFINITION. What claims are stated in: the invariant of the block, the calendar of R86 as the spec words it, runs
without a reset, and the split read protocol of R75. -/

namespace Sys2Proof.Machine

/-- The values STATUS.CODE takes (R65). -/
def statusCodes : List Byte := [0x00#8, 0x01#8, 0x80#8, 0x81#8, 0x82#8, 0x83#8]

/-- What holds of every state a run reaches: a legal configuration (R7), N_SLOTS slots (R27), LAST_RAW within W bits
(R20), every pending DEADLINE ahead of UPTIME (R29), no live handle with GEN 0 and none in WAKE_LOG (R66, R93), and a
CODE of R65. -/
abbrev State.Inv (s : State) : Prop :=
  s.cfg.legal = true ∧
  s.slots.length = s.cfg.nSlots ∧
  s.lastRaw.toNat < 2 ^ s.cfg.rawWidth ∧
  (∀ x ∈ s.slots, x.state = .pending → s.uptime < x.deadline ∧ x.gen ≠ 0#48) ∧
  (∀ e ∈ s.wakeLog, handleGen e.handle ≠ 0#48) ∧
  s.code ∈ statusCodes

/-- R86 as it stands: `year` is the largest year from 1970 on, and `month` the largest month, whose days before it do
not exceed the day number. -/
def IsCivil (d year month day : Nat) : Prop :=
  (1970 ≤ year ∧ daysBeforeYear year ≤ d ∧ ∀ y, 1970 ≤ y → daysBeforeYear y ≤ d → y ≤ year) ∧
  (1 ≤ month ∧ month ≤ 12 ∧ daysBeforeMonth year month ≤ d - daysBeforeYear year ∧
    ∀ m, 1 ≤ m → m ≤ 12 → daysBeforeMonth year m ≤ d - daysBeforeYear year → m ≤ month) ∧
  day = d - daysBeforeYear year - daysBeforeMonth year month + 1

/-- R87 field by field: the words of the date at uptime value `u`. -/
def IsDateOf (c : Config) (u : Word) (w : DateWords) : Prop :=
  IsCivil (secondsAt c u / 86400) (dtYear w) (dtMonth w) (dtDay w) ∧
  dtHour w = secondsAt c u % 86400 / 3600 ∧
  dtMinute w = secondsAt c u % 86400 % 3600 / 60 ∧
  dtSecond w = secondsAt c u % 86400 % 60 ∧
  dtReserved w = 0 ∧
  w.dt2.toNat = u.toNat % c.freq.toNat

/-- The offsets of the registers other than UPTIME that a read may name (R38). -/
def readableOffsets : List Nat := [0x10, 0x20, 0x28, 0x30, 0x40, 0x48, 0x50, 0x58, 0x60, 0x68, 0x70, 0x78]

/-- R41: the offset lies in the window, off CMD and off the reserved slots. -/
abbrev Readable (off : Nat) : Prop :=
  off < 0x80 ∧ ¬(0x08 ≤ off ∧ off < 0x10) ∧ ¬(0x18 ≤ off ∧ off < 0x20) ∧ ¬(0x38 ≤ off ∧ off < 0x40)

/-- No reset is among the arrivals. -/
def State.NoReset (s : State) : Prop := ∀ c, Event.reset c ∉ s.inputs

/-- The tick source's events as arrivals. -/
def tickEvents (raws : List Word) : List Event := raws.map fun raw => .transaction (.tickEvent raw)

/-- The raw counts that TICKs with these values add, each modulo 2^W, from the reference point `last` (R80). -/
def deltaSum (width : Nat) (last : Word) : List Word → Nat
  | [] => 0
  | raw :: raws => (((raw.toNat : Int) - last.toNat) % 2 ^ width).toNat + deltaSum width raw raws

/-- The value of the high-low-high protocol (R75): `lo'` is the re-read of the low half. -/
def splitRead (h1 lo h2 lo' : Half) : Word := h2 ++ (if h1 = h2 then lo else lo')

end Sys2Proof.Machine
end

