-- ==== Sys2Proof/Certificates/Slice0/Obligations.lean ====
section
/-! DEFINITION. The statements for the provers. A record equation `exec i s = .next { s with … }` is the instruction's
result and its whole frame at once: every field not named is unchanged. The block has no data memory (R37); for the
two rows that store into the register window the frame is said byte by byte as well. The data a read returns is the
entry that the model adds to its read log (log 3), and what arrives next is the head of the model's input list (log 1). -/

open Sys2Proof Sys2Proof.Machine

/-! ### Encoding and decoding -/

/-- R61: the eight CMD words, written out bit by bit, name the eight commands, and no other word names one. -/
def Obligations.CommandWordsDecode : Prop :=
  decode (.cmdWord 0b00000000000000000000000000000001#32) = .now ∧
  decode (.cmdWord 0b00000000000000000000000000000010#32) = .elapsed ∧
  decode (.cmdWord 0b00000000000000000000000000000011#32) = .toDatetime ∧
  decode (.cmdWord 0b00000000000000000000000000000100#32) = .fromDatetime ∧
  decode (.cmdWord 0b00000000000000000000000000000101#32) = .clockNow ∧
  decode (.cmdWord 0b00000000000000000000000000000110#32) = .waitUntil ∧
  decode (.cmdWord 0b00000000000000000000000000000111#32) = .waitFor ∧
  decode (.cmdWord 0b00000000000000000000000000001000#32) = .cancel ∧
  ∀ w : Half, w.toNat = 0 ∨ 8 < w.toNat → decode (.cmdWord w) = .illegalCommand w

/-- R62: a CMD word is illegal exactly when a reserved bit is set or OPCODE is 0x00 or lies in 0x09..0xFF, and then its
effect is STATUS.CODE := 0x80 and STATUS.LAST_OP := word[7:0], nothing else. -/
def Obligations.IllegalWordsChangeOnlyStatus : Prop :=
  ∀ (w : Half) (s : State),
    (decode (.cmdWord w) = .illegalCommand w ↔
      w >>> 8 ≠ 0#32 ∨ w.setWidth 8 = 0#8 ∨ 9#8 ≤ w.setWidth 8) ∧
    exec (.illegalCommand w) s = .next { s with code := 0x80#8, lastOp := w.setWidth 8 }

/-- Decoding the encoding of a well-formed instruction gives it back, with every operand at every value. -/
def Obligations.DecodeEncodeAgree : Prop := ∀ i : Instr, i.wellFormed = true → decode (encode i) = i

/-- Encoding the decoding of a legal transaction gives it back: no two legal transactions decode to one instruction. -/
def Obligations.EncodeDecodeAgree : Prop := ∀ t : Transaction, t.legal = true → encode (decode t) = t

/-- The decoder answers only instructions that its rows can carry. -/
def Obligations.DecodedInstructionsAreWellFormed : Prop := ∀ t : Transaction, (decode t).wellFormed = true

/-! ### Steps -/

/-- In a legally configured machine whose next arrival is a transaction, step is exec of the decoded instruction, at
the state with that arrival taken. -/
def Obligations.StepRunsDecodedTransaction : Prop :=
  ∀ (s : State) (t : Transaction) (rest : List Event),
    s.cfg.legal = true → s.inputs = .transaction t :: rest → step s = exec (decode t) { s with inputs := rest }

/-- With no arrival the block idles (the model's choice, log 1); a state that holds an illegal configuration is refused
(log 9), and so is a reset that brings one, for every configuration the model calls illegal, one with an unaligned BASE
among them (log 7, log 16). -/
def Obligations.StepIdlesOrRefuses : Prop :=
  ∀ s : State,
    (s.cfg.legal = true → s.inputs = [] → step s = .next s) ∧
    (s.cfg.legal = false → step s = .refused .illegalConfiguration) ∧
    ∀ (c : Config) (rest : List Event), s.cfg.legal = true → c.legal = false → s.inputs = .reset c :: rest →
      step s = .refused .illegalConfiguration

/-- R35, R124: a reset sets every piece of state, whatever was there before, and emits no WAKE. The configuration it
takes as fixed arrives with it (log 7). -/
def Obligations.ResetSetsEveryField : Prop :=
  ∀ (s : State) (c : Config) (rest : List Event),
    s.cfg.legal = true → c.legal = true → s.inputs = .reset c :: rest →
    ∃ t, step s = .next t ∧ t.cfg = c ∧ t.uptime = 0#64 ∧
      t.lastRaw = (if c.incMode = .delta then c.rawAtReset else 0#64) ∧
      (∀ k, t.arg k = 0#64) ∧ t.res0 = 0#64 ∧ t.res1 = 0#64 ∧ t.res2 = 0#64 ∧ t.res3 = 0#64 ∧
      t.statusWord = 0#64 ∧ t.slots.length = c.nSlots ∧
      (∀ x ∈ t.slots, x.state = .free ∧ x.deadline = 0#64 ∧ x.waker = 0#64 ∧ x.gen = 0#48) ∧ t.wakeLog = []

/-- R7: a machine is not built for a configuration outside the ranges of R6, which arrives with a reset (log 7). -/
def Obligations.ResetRefusesIllegalConfiguration : Prop :=
  ∀ (s : State) (c : Config) (rest : List Event),
    s.cfg.legal = true →
    (c.freq = 0#64 ∨ c.period = 0#64 ∨ c.rawWidth = 0 ∨ 64 < c.rawWidth ∨ c.nSlots = 0 ∨ 65536 < c.nSlots ∨
      c.incMode = .delta ∧ 2 ^ c.rawWidth ≤ c.rawAtReset.toNat) →
    s.inputs = .reset c :: rest → step s = .refused .illegalConfiguration

/-! ### The uptime family -/

/-- R77: NOW. -/
def Obligations.NowReadsUptime : Prop :=
  decode (.cmdWord 0x00000001#32) = .now ∧
  ∀ s : State, exec .now s = .next { s with res0 := s.uptime, code := 0x00#8, lastOp := 0x01#8 }

/-- R78: ELAPSED saturates at 0 for a future `since`. -/
def Obligations.ElapsedSaturatesAtZero : Prop :=
  decode (.cmdWord 0x00000002#32) = .elapsed ∧
  ∀ s : State, ∃ r : Word,
    exec .elapsed s = .next { s with res0 := r, code := 0x00#8, lastOp := 0x02#8 } ∧
    (s.arg0.toNat ≤ s.uptime.toNat → r.toNat = s.uptime.toNat - s.arg0.toNat) ∧
    (s.uptime.toNat < s.arg0.toNat → r.toNat = 0)

/-- R72: in PERIOD mode a TICK adds exactly P, saturating, and LAST_RAW is neither read nor written. -/
def Obligations.PeriodTickAddsExactlyP : Prop :=
  ∀ (raw : Word) (s : State), s.cfg.incMode = .period →
    ∃ t, exec (.tick raw) s = .next t ∧
      t.uptime.toNat = min (s.uptime.toNat + s.cfg.period.toNat) (2 ^ 64 - 1) ∧
      t = { s with uptime := t.uptime, slots := t.slots, wakeLog := t.wakeLog } ∧
      ∀ r l, exec (.tick r) { s with lastRaw := l } = .next { t with lastRaw := l }

/-- R73: in DELTA mode a TICK adds (raw - LAST_RAW) mod 2^W, and LAST_RAW becomes raw. -/
def Obligations.DeltaTickAddsModularDelta : Prop :=
  ∀ (raw : Word) (s : State), s.cfg.incMode = .delta → s.cfg.rawWidth ≤ 64 →
    raw.toNat < 2 ^ s.cfg.rawWidth →
    ∃ t, exec (.tick raw) s = .next t ∧
      (t.uptime.toNat : Int) =
        min (s.uptime.toNat + ((raw.toNat : Int) - s.lastRaw.toNat) % 2 ^ s.cfg.rawWidth) (2 ^ 64 - 1) ∧
      t = { s with uptime := t.uptime, lastRaw := raw, slots := t.slots, wakeLog := t.wakeLog }

/-- R79: a TICK whose sum exceeds MAX64 leaves MAX64 and fires every pending registration; from MAX64 on the counter
stays there and every WAIT_UNTIL finishes READY. -/
def Obligations.UptimeSaturates : Prop :=
  (∀ (raw : Word) (s : State), max64 < s.uptime.toNat + s.tickIncrement raw →
    ∃ t, exec (.tick raw) s = .next t ∧ t.uptime.toNat = max64 ∧ (∀ x ∈ t.slots, x.state = .free) ∧
      t.wakeLog = s.wakeLog ++ s.slots.zipIdx.filterMap fun (x, i) =>
        if x.state = .pending then some { waker := x.waker, handle := x.gen ++ BitVec.ofNat 16 i } else none) ∧
  ∀ s : State, s.uptime.toNat = max64 →
    (∀ i t, exec i s = .next t → t.uptime.toNat = max64) ∧
    exec .waitUntil s = .next { s with res0 := 0#64, res1 := s.arg0, code := 0x01#8, lastOp := 0x06#8 }

/-- R74: the 8-byte UPTIME read returns UPTIME and changes nothing. -/
def Obligations.UptimeReadIsWhole : Prop :=
  decode (.load 0x00 8) = .ld64Uptime ∧
  ∀ s : State, exec .ld64Uptime s = .next { s with readLog := s.readLog ++ [.word s.uptime] }

/-- R43: a 4-byte read of UPTIME returns the half R39 selects. -/
def Obligations.UptimeHalvesReadLowAndHigh : Prop :=
  decode (.load 0x00 4) = .ld32Uptime .lo ∧ decode (.load 0x04 4) = .ld32Uptime .hi ∧
  ∀ s : State, ∃ lo hi : Half,
    exec (.ld32Uptime .lo) s = .next { s with readLog := s.readLog ++ [.half lo] } ∧
    exec (.ld32Uptime .hi) s = .next { s with readLog := s.readLog ++ [.half hi] } ∧
    lo.toNat = s.uptime.toNat % 2 ^ 32 ∧ hi.toNat = s.uptime.toNat / 2 ^ 32

/-- The PERIOD-mode tick-count law (an inference the spec draws in 40_uptime.md section 4). -/
def Obligations.PeriodTickCountLaw : Prop :=
  ∀ (s : State) (raws : List Word), s.cfg.legal = true → s.cfg.incMode = .period → s.inputs = tickEvents raws →
    ∃ t, Sys2Proof.core.run raws.length s = .next t ∧
      t.uptime.toNat = min (s.uptime.toNat + raws.length * s.cfg.period.toNat) max64

/-- The DELTA-mode tick-count law (an inference the spec draws in 40_uptime.md section 4). -/
def Obligations.DeltaTickCountLaw : Prop :=
  ∀ (s : State) (raws : List Word), s.cfg.legal = true → s.cfg.incMode = .delta → s.inputs = tickEvents raws →
    (∀ raw ∈ raws, raw.toNat < 2 ^ s.cfg.rawWidth) →
    ∃ t, Sys2Proof.core.run raws.length s = .next t ∧
      t.uptime.toNat = min (s.uptime.toNat + deltaSum s.cfg.rawWidth s.lastRaw raws) max64

/-- R75: the high-low-high protocol, with any arrivals between its reads but a reset or an access that ends in BusError
(at which the run stops, log 4). `s`, `t`, `u` and `v` are the
states of the first high read, of the low read, of the second high read and of the re-read of the low half. When the
high reads agree the value is UPTIME at the low read; when they differ it falls short of UPTIME at the re-read by a
multiple of 2^32, which is 0 exactly if UPTIME's high half has not changed since the second high read. -/
def Obligations.SplitReadProtocol : Prop :=
  ∀ (s t u v : State) (l m n : Nat) (h1 lo h2 lo' : Half), s.NoReset →
    Sys2Proof.core.run l s = .next t → Sys2Proof.core.run m t = .next u → Sys2Proof.core.run n u = .next v →
    s.memRead 0x04 4 = some (.half h1) → t.memRead 0x00 4 = some (.half lo) →
    u.memRead 0x04 4 = some (.half h2) → v.memRead 0x00 4 = some (.half lo') →
    (h1 = h2 → splitRead h1 lo h2 lo' = t.uptime) ∧
    (h1 ≠ h2 → ∃ k : Nat, v.uptime.toNat = (splitRead h1 lo h2 lo').toNat + k * 2 ^ 32 ∧
      (k = 0 ↔ u.uptime.toNat / 2 ^ 32 = v.uptime.toNat / 2 ^ 32))

/-! ### The clock family -/

/-- The civil date of every day number is the one the words of 41_clock.md section 1 define. -/
def Obligations.CivilIsLargestYearAndMonth : Prop :=
  ∀ d : Nat, IsCivil d (civil d).1 (civil d).2.1 (civil d).2.2

/-- Days before a year: the closed formula is the sum of the year lengths (the spec's own inference). -/
def Obligations.DaysBeforeYearIsSumOfYears : Prop :=
  daysBeforeYear 1970 = 0 ∧ ∀ y, 1970 ≤ y → daysBeforeYear (y + 1) = daysBeforeYear y + yearDays y

/-- R90: TO_DATETIME. -/
def Obligations.ToDatetimeGivesTheDate : Prop :=
  decode (.cmdWord 0x00000003#32) = .toDatetime ∧
  ∀ s : State, s.cfg.freq ≠ 0#64 → ∃ w : DateWords,
    IsDateOf s.cfg s.arg0 w ∧
    exec .toDatetime s =
      .next { s with res0 := w.dt0, res1 := w.dt1, res2 := w.dt2, code := 0x00#8, lastOp := 0x03#8 }

/-- R92: CLOCK_NOW. -/
def Obligations.ClockNowGivesDateAndSample : Prop :=
  decode (.cmdWord 0x00000005#32) = .clockNow ∧
  ∀ s : State, s.cfg.freq ≠ 0#64 → ∃ w : DateWords,
    IsDateOf s.cfg s.uptime w ∧
    exec .clockNow s =
      .next { s with res0 := w.dt0, res1 := w.dt1, res2 := w.dt2, res3 := s.uptime, code := 0x00#8, lastOp := 0x05#8 }

/-- R88: a date is valid exactly when every field of its three words is in range. -/
def Obligations.ValidDateChecksEveryField : Prop :=
  ∀ (c : Config) (d : DateWords), ValidDate c d ↔
    1970 ≤ d.dt0.toNat % 2 ^ 48 ∧
    (1 ≤ d.dt0.toNat / 2 ^ 48 % 2 ^ 8 ∧ d.dt0.toNat / 2 ^ 48 % 2 ^ 8 ≤ 12) ∧
    (1 ≤ d.dt0.toNat / 2 ^ 56 ∧
      d.dt0.toNat / 2 ^ 56 ≤ monthDays (d.dt0.toNat % 2 ^ 48) (d.dt0.toNat / 2 ^ 48 % 2 ^ 8)) ∧
    d.dt1.toNat % 2 ^ 8 ≤ 23 ∧ d.dt1.toNat / 2 ^ 8 % 2 ^ 8 ≤ 59 ∧ d.dt1.toNat / 2 ^ 16 % 2 ^ 8 ≤ 59 ∧
    d.dt1.toNat / 2 ^ 24 = 0 ∧ d.dt2.toNat < c.freq.toNat

/-- R89: FROM_DATETIME of a valid date fails where the date precedes the epoch or needs more than 64 bits of ticks, and
gives the tick count otherwise. -/
def Obligations.FromDatetimeGivesTicks : Prop :=
  decode (.cmdWord 0x00000004#32) = .fromDatetime ∧
  ∀ (s : State) (d : DateWords), d = ⟨s.arg0, s.arg1, s.arg2⟩ → ValidDate s.cfg d →
    (secondsOf d < s.cfg.epoch.toNat →
      exec .fromDatetime s = .next { s with code := 0x82#8, lastOp := 0x04#8 }) ∧
    (s.cfg.epoch.toNat ≤ secondsOf d →
      max64 < (secondsOf d - s.cfg.epoch.toNat) * s.cfg.freq.toNat + s.arg2.toNat →
      exec .fromDatetime s = .next { s with code := 0x82#8, lastOp := 0x04#8 }) ∧
    (s.cfg.epoch.toNat ≤ secondsOf d →
      (secondsOf d - s.cfg.epoch.toNat) * s.cfg.freq.toNat + s.arg2.toNat ≤ max64 →
      ∃ r : Word, r.toNat = (secondsOf d - s.cfg.epoch.toNat) * s.cfg.freq.toNat + s.arg2.toNat ∧
        exec .fromDatetime s = .next { s with res0 := r, code := 0x00#8, lastOp := 0x04#8 })

/-- R107: OUT_OF_RANGE, with only STATUS changed, comes from FROM_DATETIME of a date that is not valid, precedes the
epoch or exceeds MAX64, whichever check failed; TO_DATETIME, CLOCK_NOW and every other CMD word never give it. -/
def Obligations.FromDatetimeOutOfRange : Prop :=
  (∀ (s : State) (d : DateWords), d = ⟨s.arg0, s.arg1, s.arg2⟩ →
    (¬ValidDate s.cfg d ∨ secondsOf d < s.cfg.epoch.toNat ∨
      max64 < (secondsOf d - s.cfg.epoch.toNat) * s.cfg.freq.toNat + s.arg2.toNat) →
    exec .fromDatetime s = .next { s with code := 0x82#8, lastOp := 0x04#8 }) ∧
  ∀ s t : State,
    (exec .toDatetime s = .next t ∨ exec .clockNow s = .next t ∨
      ∃ w : Half, w ≠ 0x00000004#32 ∧ exec (decode (.cmdWord w)) s = .next t) →
    t.code ≠ 0x82#8

/-- Every uptime value survives the trip through a date, at every frequency and epoch (41_clock.md section 3, the
spec's own inference). -/
def Obligations.TicksSurviveDateRoundTrip : Prop :=
  ∀ (c : Config) (u : Word), c.freq ≠ 0#64 → fromFields c (toFields c u) = some u

/-- Every date that converts survives the trip through ticks (41_clock.md section 3, the spec's own inference). -/
def Obligations.DatesSurviveTickRoundTrip : Prop :=
  ∀ (c : Config) (d : DateWords) (u : Word), fromFields c d = some u → toFields c u = d

/-- The year of every date the block produces is at most 1169108100477 (41_clock.md section 2, the spec's own
inference). -/
def Obligations.ProducedYearsAreBounded : Prop :=
  ∀ (c : Config) (u : Word), c.freq ≠ 0#64 → dtYear (toFields c u) ≤ 1169108100477

/-! ### The alarm family -/

/-- R98, with the allocation of R93: READY first, then NO_SLOT, else the lowest free slot. -/
def Obligations.WaitUntilOutcomes : Prop :=
  decode (.cmdWord 0x00000006#32) = .waitUntil ∧
  ∀ s : State,
    (s.arg0.toNat ≤ s.uptime.toNat →
      exec .waitUntil s = .next { s with res0 := 0#64, res1 := s.arg0, code := 0x01#8, lastOp := 0x06#8 }) ∧
    (s.uptime.toNat < s.arg0.toNat → (∀ x ∈ s.slots, x.state = .pending) →
      exec .waitUntil s = .next { s with code := 0x83#8, lastOp := 0x06#8 }) ∧
    (∀ i x, s.uptime.toNat < s.arg0.toNat → s.slots[i]? = some x → x.state = .free →
      (∀ j, j < i → ∀ y, s.slots[j]? = some y → y.state = .pending) →
      ∃ g : Gen, g.toNat = (if x.gen.toNat = 2 ^ 48 - 1 then 1 else x.gen.toNat + 1) ∧
        exec .waitUntil s = .next { s with
          slots := s.slots.set i { state := .pending, deadline := s.arg0, waker := s.arg1, gen := g }
          res0 := g ++ BitVec.ofNat 16 i, res1 := s.arg0, code := 0x00#8, lastOp := 0x06#8 })

/-- R99: WAIT_FOR checks the exact sum first and is otherwise WAIT_UNTIL's body at that target, with LAST_OP 0x07. -/
def Obligations.WaitForIsWaitUntilAtSum : Prop :=
  decode (.cmdWord 0x00000007#32) = .waitFor ∧
  ∀ s : State,
    (2 ^ 64 - 1 < s.uptime.toNat + s.arg0.toNat →
      exec .waitFor s = .next { s with code := 0x81#8, lastOp := 0x07#8 }) ∧
    (s.uptime.toNat + s.arg0.toNat ≤ 2 ^ 64 - 1 →
      ∃ (sum : Word) (t : State), sum.toNat = s.uptime.toNat + s.arg0.toNat ∧
        exec .waitUntil { s with arg0 := sum } = .next t ∧
        exec .waitFor s = .next { t with arg0 := s.arg0, lastOp := 0x07#8 })

/-- R106, R108: INVALID_DEADLINE is WAIT_FOR's answer exactly to a sum above MAX64 and never WAIT_UNTIL's; NO_SLOT is
the answer of either exactly to a future target while every slot is PENDING; no other CMD word gives either code. -/
def Obligations.WaitErrorsExactlyOnOverflowAndFullFile : Prop :=
  (∀ s t : State, exec .waitFor s = .next t →
    (t.code = 0x81#8 ↔ 2 ^ 64 - 1 < s.uptime.toNat + s.arg0.toNat) ∧
    (t.code = 0x83#8 ↔ s.uptime.toNat + s.arg0.toNat ≤ 2 ^ 64 - 1 ∧ 0 < s.arg0.toNat ∧
      ∀ x ∈ s.slots, x.state = .pending)) ∧
  (∀ s t : State, exec .waitUntil s = .next t →
    t.code ≠ 0x81#8 ∧
    (t.code = 0x83#8 ↔ s.uptime.toNat < s.arg0.toNat ∧ ∀ x ∈ s.slots, x.state = .pending)) ∧
  ∀ (w : Half) (s t : State), w ≠ 0x00000006#32 → w ≠ 0x00000007#32 → exec (decode (.cmdWord w)) s = .next t →
    t.code ≠ 0x81#8 ∧ t.code ≠ 0x83#8

/-- R100: CANCEL releases exactly the pending registration whose slot and generation match, else does nothing. -/
def Obligations.CancelReleasesOnExactMatch : Prop :=
  decode (.cmdWord 0x00000008#32) = .cancel ∧
  ∀ s : State,
    (∀ x, s.arg0.toNat % 2 ^ 16 < s.cfg.nSlots → s.slots[s.arg0.toNat % 2 ^ 16]? = some x → x.state = .pending →
      x.gen.toNat = s.arg0.toNat / 2 ^ 16 →
      exec .cancel s = .next { s with
        slots := s.slots.set (s.arg0.toNat % 2 ^ 16) { x with state := .free }
        res0 := 1#64, code := 0x00#8, lastOp := 0x08#8 }) ∧
    ((¬∃ x, s.arg0.toNat % 2 ^ 16 < s.cfg.nSlots ∧ s.slots[s.arg0.toNat % 2 ^ 16]? = some x ∧ x.state = .pending ∧
        x.gen.toNat = s.arg0.toNat / 2 ^ 16) →
      exec .cancel s = .next { s with res0 := 0#64, code := 0x00#8, lastOp := 0x08#8 })

/-- R94: a TICK fires every slot whose deadline the new UPTIME has reached, in ascending slot order, and no other. -/
def Obligations.TickFiresReachedDeadlines : Prop :=
  ∀ (raw : Word) (s : State), ∃ t, exec (.tick raw) s = .next t ∧
    (∀ i : Nat, t.slots[i]? = (s.slots[i]?).map fun x =>
      if x.state = .pending ∧ x.deadline.toNat ≤ t.uptime.toNat then { x with state := .free } else x) ∧
    t.wakeLog = s.wakeLog ++ s.slots.zipIdx.filterMap fun (x, i) =>
      if x.state = .pending ∧ x.deadline.toNat ≤ t.uptime.toNat then
        some { waker := x.waker, handle := x.gen ++ BitVec.ofNat 16 i }
      else none

/-- A pending registration wakes exactly once at the first TICK that reaches its deadline, and not at an earlier one
(42_alarm.md section 2, the spec's own inference). -/
def Obligations.RegistrationWakesExactlyOnce : Prop :=
  ∀ (raw : Word) (s t : State) (i : Nat) (x : Slot), s.Inv → s.slots[i]? = some x → x.state = .pending →
    exec (.tick raw) s = .next t →
    (x.deadline.toNat ≤ t.uptime.toNat →
      t.wakeLog.countP (·.handle = handleOf x.gen i) = s.wakeLog.countP (·.handle = handleOf x.gen i) + 1 ∧
      (t.slot i).state = .free) ∧
    (t.uptime.toNat < x.deadline.toNat →
      t.wakeLog.countP (·.handle = handleOf x.gen i) = s.wakeLog.countP (·.handle = handleOf x.gen i) ∧
      t.slot i = x)

/-- A TICK that stays below every pending deadline changes no slot and emits nothing, which is what a cached minimum
relies on (10_state.md section 6). -/
def Obligations.TickBelowMinimumDeadlineFiresNothing : Prop :=
  ∀ (raw : Word) (s t : State), exec (.tick raw) s = .next t →
    (∀ x ∈ s.slots, x.state = .pending → t.uptime.toNat < x.deadline.toNat) →
    t.slots = s.slots ∧ t.wakeLog = s.wakeLog

/-- The handle that WAIT_UNTIL or WAIT_FOR returns with OK is not 0 and names the registration just made (its target,
its waker, its generation), and CANCEL of it releases exactly that slot: every other slot and WAKE_LOG stay
(30_encoding.md section 2 and 42_alarm.md sections 1 and 3). -/
def Obligations.CancelTakesBackRegistration : Prop :=
  ∀ (i : Instr) (s t : State), s.Inv → i = .waitUntil ∨ i = .waitFor → exec i s = .next t → t.code = 0x00#8 →
    t.res0 ≠ 0#64 ∧ handleGen t.res0 ≠ 0#48 ∧
    t.slots[handleSlot t.res0]? =
      some { state := .pending, deadline := t.res1, waker := s.arg1, gen := handleGen t.res0 } ∧
    ∃ u, exec .cancel { t with arg0 := t.res0 } = .next u ∧ u.res0 = 1#64 ∧
      u.slots[handleSlot t.res0]? =
        some { state := .free, deadline := t.res1, waker := s.arg1, gen := handleGen t.res0 } ∧
      (∀ j, j ≠ handleSlot t.res0 → u.slots[j]? = t.slots[j]? ∧ t.slots[j]? = s.slots[j]?) ∧
      u.wakeLog = s.wakeLog

/-- CANCEL is idempotent: the second one reports 0 and changes no slot (42_alarm.md section 3). -/
def Obligations.CancelIsIdempotent : Prop :=
  ∀ s t : State, exec .cancel s = .next t →
    ∃ u, exec .cancel t = .next u ∧ u.res0 = 0#64 ∧ u.slots = t.slots ∧ u.wakeLog = s.wakeLog

/-- A CANCEL racing the TICK that fires its registration: the TICK first gives the WAKE and RES0 = 0, the CANCEL first
gives RES0 = 1 and no WAKE (60_exceptions.md section 2, the spec's own inference). -/
def Obligations.CancelRacesFiringTick : Prop :=
  ∀ (raw : Word) (s : State) (i : Nat) (x : Slot), s.Inv → s.slots[i]? = some x → x.state = .pending →
    s.arg0 = handleOf x.gen i → x.deadline.toNat ≤ s.uptime.toNat + s.tickIncrement raw →
    (∃ t u, exec (.tick raw) s = .next t ∧ exec .cancel t = .next u ∧ u.res0 = 0#64 ∧
      u.wakeLog.countP (·.handle = s.arg0) = s.wakeLog.countP (·.handle = s.arg0) + 1) ∧
    (∃ t u, exec .cancel s = .next t ∧ t.res0 = 1#64 ∧ exec (.tick raw) t = .next u ∧
      u.wakeLog.countP (·.handle = s.arg0) = s.wakeLog.countP (·.handle = s.arg0))

/-! ### Bus accesses -/

/-- R42: what an 8-byte read of each register returns; it changes nothing else. -/
def Obligations.RegisterReadsReturnRegisters : Prop :=
  ∀ s : State,
    exec .ld64Uptime s = .next { s with readLog := s.readLog ++ [.word s.uptime] } ∧
    exec (.ld64 0x10) s = .next { s with readLog := s.readLog ++ [.word (0#48 ++ s.lastOp ++ s.code)] } ∧
    exec (.ld64 0x20) s = .next { s with readLog := s.readLog ++ [.word s.arg0] } ∧
    exec (.ld64 0x28) s = .next { s with readLog := s.readLog ++ [.word s.arg1] } ∧
    exec (.ld64 0x30) s = .next { s with readLog := s.readLog ++ [.word s.arg2] } ∧
    exec (.ld64 0x40) s = .next { s with readLog := s.readLog ++ [.word s.res0] } ∧
    exec (.ld64 0x48) s = .next { s with readLog := s.readLog ++ [.word s.res1] } ∧
    exec (.ld64 0x50) s = .next { s with readLog := s.readLog ++ [.word s.res2] } ∧
    exec (.ld64 0x58) s = .next { s with readLog := s.readLog ++ [.word s.res3] } ∧
    exec (.ld64 0x60) s = .next { s with readLog := s.readLog ++ [.word s.cfg.freq] } ∧
    exec (.ld64 0x68) s = .next { s with readLog := s.readLog ++ [.word s.cfg.epoch] } ∧
    exec (.ld64 0x70) s = .next { s with readLog := s.readLog ++ [.word s.cfg.period] } ∧
    exec (.ld64 0x78) s = .next { s with readLog := s.readLog ++ [.word
      (0#16 ++ BitVec.ofNat 32 s.cfg.nSlots ++ 0#8 ++ (if s.cfg.incMode = .delta then 1#1 else 0#1) ++
        BitVec.ofNat 7 s.cfg.rawWidth)] }

/-- R26: INFO's fields, and that a write to it is a bus error. -/
def Obligations.InfoShowsConfiguration : Prop :=
  ∀ s : State, s.cfg.legal = true →
    (∃ v : Word, exec (.ld64 0x78) s = .next { s with readLog := s.readLog ++ [.word v] } ∧
      v.toNat = s.cfg.rawWidth + (if s.cfg.incMode = .delta then 2 ^ 7 else 0) + s.cfg.nSlots * 2 ^ 16) ∧
    ∀ v, exec (decode (.store 0x78 8 v)) s = .fault (.busError 0x78) ∧
      exec (decode (.store 0x78 4 v)) s = .fault (.busError 0x78) ∧
      exec (decode (.store 0x7C 4 v)) s = .fault (.busError 0x7C)

/-- R39: the two 4-byte reads of a register and its 8-byte read agree, the half at the lower offset being the low
one. -/
def Obligations.HalfReadsMakeTheWhole : Prop :=
  ∀ (s : State) (off : Nat), off ∈ readableOffsets → ∃ (v : Word) (lo hi : Half),
    exec (.ld64 off) s = .next { s with readLog := s.readLog ++ [.word v] } ∧
    exec (.ld32 off) s = .next { s with readLog := s.readLog ++ [.half lo] } ∧
    exec (.ld32 (off + 4)) s = .next { s with readLog := s.readLog ++ [.half hi] } ∧
    v.toNat = lo.toNat + 2 ^ 32 * hi.toNat

/-- Little-endian byte order: byte `off + i` of the window is bits [8i+7:8i] of what a read at `off` returns
(20_memory.md section 2, through the model's view of one byte, log 14). -/
def Obligations.WindowBytesAreLittleEndian : Prop :=
  ∀ (s : State) (off i : Nat),
    (∀ v, s.memRead off 8 = some (.word v) → i < 8 → s.windowByte (off + i) = some (v.extractLsb' (8 * i) 8)) ∧
    (∀ h, s.memRead off 4 = some (.half h) → i < 4 → s.windowByte (off + i) = some (h.extractLsb' (8 * i) 8))

/-- R41: a read completes exactly at an aligned, readable offset, with the register of the 8-byte slot or the half of it
that the offset names; it appends that data to the read log and changes nothing else. Everywhere else it is
BusError(off). -/
def Obligations.ReadsCompleteExactlyWhereReadable : Prop :=
  ∀ (off n : Nat) (s : State),
    (AlignedAccess off n → Readable off →
      ∃ v : Word, s.windowReg (off / 8) = some v ∧
        exec (decode (.load off n)) s = .next { s with readLog := s.readLog ++ [
          if n = 8 then .word v
          else if off % 8 = 0 then .half (v.extractLsb' 0 32)
          else .half (v.extractLsb' 32 32)] }) ∧
    (¬(AlignedAccess off n ∧ Readable off) → exec (decode (.load off n)) s = .fault (.busError off))

/-- R45: an 8-byte write of ARGk replaces the register's eight bytes, a 4-byte write one half of it, and neither
changes anything else. -/
def Obligations.ArgWritesAndFrame : Prop :=
  (∀ (k : Fin 3) (v : Word) (s : State), ∃ t,
    exec (.st64Arg k v) s = .next t ∧ t.arg k = v ∧
    t = { s with arg0 := t.arg0, arg1 := t.arg1, arg2 := t.arg2 } ∧
    ∀ a, (argOffset k ≤ a ∧ a < argOffset k + 8 →
        t.windowByte a = some (v.extractLsb' (8 * (a - argOffset k)) 8)) ∧
      (¬(argOffset k ≤ a ∧ a < argOffset k + 8) → t.windowByte a = s.windowByte a)) ∧
  ∀ (k : Fin 3) (half : HalfSel) (v : Half) (s : State), ∃ t,
    exec (.st32Arg k half v) s = .next t ∧
    (half = .lo → (t.arg k).toNat = v.toNat + 2 ^ 32 * ((s.arg k).toNat / 2 ^ 32)) ∧
    (half = .hi → (t.arg k).toNat = (s.arg k).toNat % 2 ^ 32 + 2 ^ 32 * v.toNat) ∧
    t = { s with arg0 := t.arg0, arg1 := t.arg1, arg2 := t.arg2 } ∧
    ∀ a, (argOffset k + halfOffset half ≤ a ∧ a < argOffset k + halfOffset half + 4 →
        t.windowByte a = some (v.extractLsb' (8 * (a - (argOffset k + halfOffset half))) 8)) ∧
      (¬(argOffset k + halfOffset half ≤ a ∧ a < argOffset k + halfOffset half + 4) →
        t.windowByte a = s.windowByte a)

/-- R46: a 4-byte write to CMD performs the command its word decodes to within its own step, an illegal word finishes
with ILLEGAL_COMMAND, and the write never ends in BusError. -/
def Obligations.CmdWriteIssuesCommand : Prop :=
  ∀ (v : Word) (w : Half) (s : State),
    decode (.store 0x08 4 v) = .st32Cmd (v.setWidth 32) ∧
    exec (.st32Cmd w) s = exec (decode (.cmdWord w)) s ∧
    (w.toNat = 0 ∨ 8 < w.toNat → exec (.st32Cmd w) s = .next { s with code := 0x80#8, lastOp := w.setWidth 8 }) ∧
    ∃ t, exec (.st32Cmd w) s = .next t

/-- R44: each store row means what `MemWrite` says for its offset and size, `State.memWrite` being its pseudocode. -/
def Obligations.StoresFollowMemWrite : Prop :=
  ∀ (off n : Nat) (v : Word) (s : State), exec (decode (.store off n v)) s = s.memWrite off n v

/-- A write anywhere but CMD (4 bytes) and the ARG registers is BusError(off), the reserved 0x0C among them; so is the
row ST (other) itself, whatever its operands (20_memory.md section 3). -/
def Obligations.OtherStoresAreBusErrors : Prop :=
  ∀ (off n : Nat) (v : Word) (s : State),
    (¬(off = 0x08 ∧ n = 4) → ¬(0x20 ≤ off ∧ off < 0x38) →
      exec (decode (.store off n v)) s = .fault (.busError off)) ∧
    exec (.stOther off n v) s = .fault (.busError off)

/-- R110: every cause of a BusError; so is the row BAD_ACCESS itself, whatever its operands. -/
def Obligations.BusErrorCauses : Prop :=
  ∀ (kind : AccessKind) (off n : Nat) (v : Word) (s : State),
    (n ≠ 4 ∧ n ≠ 8 ∨ off % n ≠ 0 ∨ 0x80 ≤ off ∨ 0x18 ≤ off ∧ off < 0x20 ∨ 0x38 ≤ off ∧ off < 0x40 →
      exec (decode (.load off n)) s = .fault (.busError off) ∧
      exec (decode (.store off n v)) s = .fault (.busError off)) ∧
    (0x08 ≤ off ∧ off < 0x10 → exec (decode (.load off n)) s = .fault (.busError off)) ∧
    exec (decode (.store 0x08 8 v)) s = .fault (.busError 0x08) ∧
    (off < 0x08 ∨ 0x10 ≤ off ∧ off < 0x18 ∨ 0x40 ≤ off ∧ off < 0x80 →
      exec (decode (.store off n v)) s = .fault (.busError off)) ∧
    exec (.badAccess kind off n v) s = .fault (.busError off)

/-- With BASE 8-byte aligned, an access is naturally aligned on the bus exactly when its offset is
(20_memory.md section 1; the model's BASE, log 13). -/
def Obligations.BusAlignmentIsOffsetAlignment : Prop :=
  ∀ (c : Config) (addr off n : Nat), c.legal = true → c.offsetOf addr = some off → n = 4 ∨ n = 8 →
    (addr % n = 0 ↔ off % n = 0)

/-! ### Whole-machine rules -/

/-- R23: every command, an illegal word among them, finishes within its step, writes CODE with a code of R65 and
LAST_OP with word[7:0]; the other fields a command never touches are unchanged. -/
def Obligations.EveryCommandFinishes : Prop :=
  ∀ (w : Half) (s : State), ∃ t, exec (decode (.cmdWord w)) s = .next t ∧
    t.lastOp = w.setWidth 8 ∧ t.code ∈ statusCodes ∧
    t = { s with res0 := t.res0, res1 := t.res1, res2 := t.res2, res3 := t.res3, code := t.code, lastOp := t.lastOp,
                 slots := t.slots }

/-- The outcome table of 60_exceptions.md section 1 (an inference of the spec): which code each command may give. -/
def Obligations.OutcomesOfEachCommand : Prop :=
  ∀ (i : Instr) (s t : State), exec i s = .next t →
    (i = .now ∨ i = .elapsed ∨ i = .toDatetime ∨ i = .clockNow ∨ i = .cancel → t.code = 0x00#8) ∧
    (i = .fromDatetime → t.code = 0x00#8 ∨ t.code = 0x82#8) ∧
    (i = .waitUntil → t.code = 0x00#8 ∨ t.code = 0x01#8 ∨ t.code = 0x83#8) ∧
    (i = .waitFor → t.code = 0x00#8 ∨ t.code = 0x01#8 ∨ t.code = 0x81#8 ∨ t.code = 0x83#8)

/-- R111: a command that finishes with an error code (bit 7 set) writes STATUS and nothing else. -/
def Obligations.ErrorsChangeOnlyStatus : Prop :=
  ∀ (w : Half) (s t : State), exec (decode (.cmdWord w)) s = .next t → t.code.getLsbD 7 = true →
    t = { s with code := t.code, lastOp := t.lastOp }

/-- ARG registers are written by ARG stores alone (10_state.md section 3). -/
def Obligations.OnlyArgStoresWriteArgs : Prop :=
  ∀ (i : Instr) (s t : State), exec i s = .next t →
    (∀ k v, i ≠ .st64Arg k v) → (∀ k half v, i ≠ .st32Arg k half v) → ∀ k, t.arg k = s.arg k

/-- No instruction but TICK writes UPTIME, LAST_RAW or WAKE_LOG, and none writes the configuration (10_state.md sections
2, 4 and 6). -/
def Obligations.OnlyTickAdvancesTime : Prop :=
  ∀ (i : Instr) (s t : State), exec i s = .next t →
    t.cfg = s.cfg ∧ s.wakeLog <+: t.wakeLog ∧
    ((∀ raw, i ≠ .tick raw) → t.uptime = s.uptime ∧ t.lastRaw = s.lastRaw ∧ t.wakeLog = s.wakeLog)

/-- RES and STATUS are written by commands alone, and slots by commands and TICK alone (10_state.md sections 3 and 5):
reads and ARG writes leave them. -/
def Obligations.OnlyCommandsWriteResultsAndStatus : Prop :=
  ∀ (i : Instr) (s t : State), exec i s = .next t →
    (∀ w, i ≠ decode (.cmdWord w)) → (∀ w, i ≠ .illegalCommand w) → (∀ w, i ≠ .st32Cmd w) →
    t.res0 = s.res0 ∧ t.res1 = s.res1 ∧ t.res2 = s.res2 ∧ t.res3 = s.res3 ∧ t.statusWord = s.statusWord ∧
    ((∀ raw, i ≠ .tick raw) → t.slots = s.slots)

/-- TICK writes no STATUS, ARG or RES register (R71). -/
def Obligations.TickLeavesRegistersAlone : Prop :=
  ∀ (raw : Word) (s : State), ∃ t, exec (.tick raw) s = .next t ∧
    t = { s with uptime := t.uptime, lastRaw := t.lastRaw, slots := t.slots, wakeLog := t.wakeLog }

/-- The invariant holds after a reset into any legal configuration. -/
def Obligations.InvHoldsAtReset : Prop :=
  State.reset.Inv ∧ ∀ c : Config, c.legal = true → (State.resetOf c).Inv

/-- Every step keeps the invariant: no reached deadline is pending, no live handle is 0, the slot file keeps its
length, LAST_RAW its width and STATUS.CODE its values. -/
def Obligations.StepKeepsInv : Prop := ∀ s t : State, s.Inv → step s = .next t → t.Inv

/-- UPTIME never decreases in a step, and WAKE_LOG only grows, unless the next arrival is a reset (10_state.md section
2, the spec's own inference). -/
def Obligations.UptimeNeverDecreases : Prop :=
  ∀ s t : State, (∀ c rest, s.inputs ≠ .reset c :: rest) → step s = .next t →
    s.uptime.toNat ≤ t.uptime.toNat ∧ s.wakeLog <+: t.wakeLog
end

