-- ==== Sys2Proof/Laws/Calendar.lean ====
section
/-! SUPPORT. The calendar: year lengths and the closed formula agree, and `civil` and `daysOf` are inverse (R82 to
R86). -/

namespace Sys2Proof.Machine

theorem isLeap_iff (y : Nat) : isLeap y = true ↔ (y % 4 = 0 ∧ y % 100 ≠ 0) ∨ y % 400 = 0 := by
  simp [isLeap]

/-- A year number by its 400-, 100- and 4-year cycles: the days in the years up to it. -/
theorem daysInYears_cycles (q c f e : Nat) (hc : c ≤ 3) (hf : f ≤ 24) (he : e ≤ 3) :
    daysInYears (400 * q + 100 * c + 4 * f + e) = 146097 * q + 36524 * c + 1461 * f + 365 * e := by
  have k1 : (400 * q + 100 * c + 4 * f + e) / 4 = 100 * q + 25 * c + f := by omega
  have k2 : (400 * q + 100 * c + 4 * f + e) / 100 = 4 * q + c := by omega
  have k3 : (400 * q + 100 * c + 4 * f + e) / 400 = q := by omega
  unfold daysInYears
  rw [k1, k2, k3]; omega

theorem exists_cycles (n : Nat) : ∃ q c f e, c ≤ 3 ∧ f ≤ 24 ∧ e ≤ 3 ∧ n = 400 * q + 100 * c + 4 * f + e :=
  ⟨n / 400, n % 400 / 100, n % 100 / 4, n % 4, by omega, by omega, by omega, by omega⟩

/-- The year after a cycle position: one more ordinary year, or the 366 days of the carry. -/
theorem daysInYears_cycles_succ (q c f e : Nat) (hc : c ≤ 3) (hf : f ≤ 24) (he : e ≤ 3) :
    daysInYears (400 * q + 100 * c + 4 * f + e + 1) =
      146097 * q + 36524 * c + 1461 * f + 365 * e + (if e = 3 ∧ (f < 24 ∨ c = 3) then 366 else 365) := by
  by_cases h1 : e < 3
  · rw [if_neg (by omega), show 400 * q + 100 * c + 4 * f + e + 1 = 400 * q + 100 * c + 4 * f + (e + 1) by omega,
      daysInYears_cycles q c f (e + 1) hc hf (by omega)]; omega
  by_cases h2 : f < 24
  · rw [if_pos (by omega), show 400 * q + 100 * c + 4 * f + e + 1 = 400 * q + 100 * c + 4 * (f + 1) + 0 by omega,
      daysInYears_cycles q c (f + 1) 0 hc (by omega) (by omega)]; omega
  by_cases h3 : c < 3
  · rw [if_neg (by omega), show 400 * q + 100 * c + 4 * f + e + 1 = 400 * q + 100 * (c + 1) + 4 * 0 + 0 by omega,
      daysInYears_cycles q (c + 1) 0 0 (by omega) (by omega) (by omega)]; omega
  · rw [if_pos (by omega), show 400 * q + 100 * c + 4 * f + e + 1 = 400 * (q + 1) + 100 * 0 + 4 * 0 + 0 by omega,
      daysInYears_cycles (q + 1) 0 0 0 (by omega) (by omega) (by omega)]; omega

theorem daysInYears_succ (n : Nat) : daysInYears (n + 1) = daysInYears n + yearDays (n + 1) := by
  obtain ⟨q, c, f, e, hc, hf, he, rfl⟩ := exists_cycles n
  rw [daysInYears_cycles_succ q c f e hc hf he, daysInYears_cycles q c f e hc hf he, yearDays]
  congr 1
  refine if_congr ?_ rfl rfl
  rw [isLeap_iff]; omega

theorem yearDays_bounds (y : Nat) : 365 ≤ yearDays y ∧ yearDays y ≤ 366 := by
  unfold yearDays; split <;> omega

theorem daysInYears_mono {a b : Nat} (h : a ≤ b) : daysInYears a ≤ daysInYears b := by
  induction b, h using Nat.le_induction with
  | base => exact le_rfl
  | succ n _ ih => rw [daysInYears_succ]; omega

theorem daysInYears_1969 : daysInYears 1969 = 719162 := rfl

/-- The days before a year, as a sum on natural numbers (R84). -/
theorem daysBeforeYear_add (y : Nat) (h : 1970 ≤ y) : daysBeforeYear y + 719162 = daysInYears (y - 1) := by
  have h1 := daysInYears_mono (show 1969 ≤ y - 1 by omega)
  rw [daysBeforeYear, daysInYears_1969]; rw [daysInYears_1969] at h1; omega

theorem daysBeforeYear_mono {a b : Nat} (h : a ≤ b) : daysBeforeYear a ≤ daysBeforeYear b := by
  have h1 := daysInYears_mono (show a - 1 ≤ b - 1 by omega)
  rw [daysBeforeYear, daysBeforeYear]; omega

theorem daysBeforeYear_succ (y : Nat) (h : 1970 ≤ y) : daysBeforeYear (y + 1) = daysBeforeYear y + yearDays y := by
  have h1 := daysBeforeYear_add y h
  have h2 := daysBeforeYear_add (y + 1) (by omega)
  obtain ⟨n, rfl⟩ : ∃ n, y = n + 1 := ⟨y - 1, by omega⟩
  have h3 := daysInYears_succ n
  rw [Nat.add_sub_cancel] at h1 h2; omega

/-- The year of a day number brackets it (R86). -/
theorem yearOf_bounds (d : Nat) :
    1970 ≤ yearOf d ∧ daysBeforeYear (yearOf d) ≤ d ∧ d < daysBeforeYear (yearOf d + 1) := by
  suffices h : 1970 ≤ yearOf d ∧ daysInYears (yearOf d - 1) ≤ d + 719162 ∧ d + 719162 < daysInYears (yearOf d) by
    have h1 := daysBeforeYear_add _ h.1
    have h2 := daysBeforeYear_add (yearOf d + 1) (by omega)
    rw [Nat.add_sub_cancel] at h2
    exact ⟨h.1, by omega, by omega⟩
  unfold yearOf
  simp only [Nat.add_sub_cancel, daysInYears_1969]
  generalize hn : d + 719162 = n
  have h2 := Nat.div_add_mod n 146097
  have h1 : n % 146097 < 146097 := Nat.mod_lt _ (by decide)
  generalize n / 146097 = q at *
  generalize n % 146097 = r at *
  obtain ⟨c, hc⟩ : ∃ c, c = min (r / 36524) 3 := ⟨_, rfl⟩
  have c1 : c ≤ 3 ∧ 36524 * c ≤ r ∧ (r - 36524 * c < 36524 ∨ c = 3) := by omega
  rw [← hc]
  obtain ⟨s, hs⟩ : ∃ s, s = r - 36524 * c := ⟨_, rfl⟩
  rw [← hs]
  have s1 : s < 36525 := by omega
  have h5 := Nat.div_add_mod s 1461
  have h6 : s % 1461 < 1461 := Nat.mod_lt _ (by decide)
  generalize s / 1461 = f at *
  generalize s % 1461 = w at *
  obtain ⟨e, he⟩ : ∃ e, e = min (w / 365) 3 := ⟨_, rfl⟩
  have e1 : e ≤ 3 ∧ 365 * e ≤ w ∧ (w < 365 * e + 365 ∨ (e = 3 ∧ w = 1460)) := by omega
  rw [← he]
  have f1 : f ≤ 24 := by omega
  rw [daysInYears_cycles q c f e c1.1 f1 e1.1, daysInYears_cycles_succ q c f e c1.1 f1 e1.1]
  clear hc he
  split <;> omega

theorem daysBeforeMonth_mono (y : Nat) {a b : Nat} (h : a ≤ b) : daysBeforeMonth y a ≤ daysBeforeMonth y b := by
  induction b, h using Nat.le_induction with
  | base => exact le_rfl
  | succ n _ ih => simp only [daysBeforeMonth]; omega

theorem daysBeforeMonth_thirteen (y : Nat) : daysBeforeMonth y 13 = yearDays y := by
  simp only [daysBeforeMonth, monthDays, yearDays]
  split <;> rfl

theorem daysBeforeMonth_one (y : Nat) : daysBeforeMonth y 1 = 0 := rfl

theorem monthSearch_spec (y doy n : Nat) (hn : 1 ≤ n) :
    1 ≤ monthSearch y doy n ∧ monthSearch y doy n ≤ n ∧ daysBeforeMonth y (monthSearch y doy n) ≤ doy ∧
      ∀ m, 1 ≤ m → m ≤ n → daysBeforeMonth y m ≤ doy → m ≤ monthSearch y doy n := by
  induction n, hn using Nat.le_induction with
  | base =>
    rw [show monthSearch y doy 1 = 1 from if_pos (Nat.zero_le _)]
    exact ⟨le_rfl, le_rfl, Nat.zero_le _, fun m _ h _ => h⟩
  | succ n hn ih =>
    unfold monthSearch
    split
    · next h => exact ⟨by omega, le_rfl, h, fun m _ h _ => h⟩
    · next h =>
      refine ⟨ih.1, by omega, ih.2.2.1, fun m h1 h2 h3 => ih.2.2.2 m h1 ?_ h3⟩
      rcases Nat.lt_or_ge m (n + 1) with h4 | h4
      · omega
      · rw [show m = n + 1 by omega] at h3; exact absurd h3 h

/-- The month of a day of the year brackets it (R86). -/
theorem monthSearch_bounds (y doy : Nat) (h : doy < yearDays y) :
    1 ≤ monthSearch y doy 12 ∧ monthSearch y doy 12 ≤ 12 ∧ daysBeforeMonth y (monthSearch y doy 12) ≤ doy ∧
      doy < daysBeforeMonth y (monthSearch y doy 12) + monthDays y (monthSearch y doy 12) := by
  obtain ⟨h1, h2, h3, h4⟩ := monthSearch_spec y doy 12 (by omega)
  refine ⟨h1, h2, h3, ?_⟩
  rw [show daysBeforeMonth y (monthSearch y doy 12) + monthDays y (monthSearch y doy 12) =
    daysBeforeMonth y (monthSearch y doy 12 + 1) from rfl]
  rcases Nat.lt_or_ge (monthSearch y doy 12) 12 with h5 | h5
  · by_contra h6
    have := h4 (monthSearch y doy 12 + 1) (by omega) (by omega) (by omega)
    omega
  · rw [show monthSearch y doy 12 = 12 by omega, daysBeforeMonth_thirteen]; exact h

theorem civil_eq (d : Nat) : civil d = (yearOf d, monthSearch (yearOf d) (d - daysBeforeYear (yearOf d)) 12,
    d - daysBeforeYear (yearOf d) -
      daysBeforeMonth (yearOf d) (monthSearch (yearOf d) (d - daysBeforeYear (yearOf d)) 12) + 1) := by
  rw [civil]

/-- `civil` brackets its day number: the year and the month are the ones it falls in. -/
theorem civil_spec (d : Nat) :
    1970 ≤ (civil d).1 ∧ daysBeforeYear (civil d).1 ≤ d ∧ 1 ≤ (civil d).2.1 ∧ (civil d).2.1 ≤ 12 ∧
      1 ≤ (civil d).2.2 ∧ (civil d).2.2 ≤ monthDays (civil d).1 (civil d).2.1 ∧
      daysOf (civil d).1 (civil d).2.1 (civil d).2.2 = d := by
  obtain ⟨h1, h2, h3⟩ := yearOf_bounds d
  have h4 : d - daysBeforeYear (yearOf d) < yearDays (yearOf d) := by
    have := daysBeforeYear_succ _ h1
    omega
  obtain ⟨m1, m2, m3, m4⟩ := monthSearch_bounds _ _ h4
  rw [civil_eq, daysOf]
  dsimp only
  generalize monthSearch (yearOf d) (d - daysBeforeYear (yearOf d)) 12 = m at *
  refine ⟨h1, h2, m1, m2, ?_, ?_, ?_⟩ <;> omega

theorem daysBeforeMonth_add_le (y : Nat) {m : Nat} (h : m ≤ 12) :
    daysBeforeMonth y m + monthDays y m ≤ yearDays y := by
  rw [← daysBeforeMonth_thirteen]; exact daysBeforeMonth_mono y (show m + 1 ≤ 13 by omega)

/-- `days_of` is injective on dates, so `civil` is its inverse (R86). -/
theorem civil_daysOf (y m dd : Nat) (hy : 1970 ≤ y) (hm' : m ≤ 12) (hd : 1 ≤ dd)
    (hd' : dd ≤ monthDays y m) : civil (daysOf y m dd) = (y, m, dd) := by
  have hle := daysBeforeMonth_add_le y hm'
  have hs := daysBeforeYear_succ y hy
  rw [daysOf]
  generalize hd2 : daysBeforeYear y + daysBeforeMonth y m + dd - 1 = d
  obtain ⟨h1, h2, h3⟩ := yearOf_bounds d
  have hyear : yearOf d = y := by
    rcases Nat.lt_trichotomy (yearOf d) y with h | h | h
    · have := daysBeforeYear_mono (show yearOf d + 1 ≤ y by omega); omega
    · exact h
    · have := daysBeforeYear_mono (show y + 1 ≤ yearOf d by omega); omega
  have hdoy : d - daysBeforeYear y = daysBeforeMonth y m + dd - 1 := by omega
  obtain ⟨m1, m2, m3, m4⟩ := monthSearch_bounds y (d - daysBeforeYear y) (by omega)
  have hmonth : monthSearch y (d - daysBeforeYear y) 12 = m := by
    generalize monthSearch y (d - daysBeforeYear y) 12 = k at *
    rcases Nat.lt_trichotomy k m with h | h | h
    · have h5 := daysBeforeMonth_mono y (show k + 1 ≤ m from h)
      rw [daysBeforeMonth] at h5; omega
    · exact h
    · have h5 := daysBeforeMonth_mono y (show m + 1 ≤ k from h)
      rw [daysBeforeMonth] at h5; omega
  rw [civil_eq, hyear, hmonth, show d - daysBeforeYear y - daysBeforeMonth y m + 1 = dd by omega]
end Sys2Proof.Machine
end

