-- ==== Sys2Proof/Laws/Exec.lean ====
section
/-! SUPPORT. The clock commands as record updates, with the converted date as a variable, so that no proof compares
two calendar terms by computation, and the two outcomes of CANCEL. -/

namespace Sys2Proof.Machine

theorem next_setDate_finish (s : State) (op : Byte) (d : DateWords) :
    (.next ((s.setDate d).finish op codeOk) : Outcome) =
      .next { s with res0 := d.dt0, res1 := d.dt1, res2 := d.dt2, code := 0x00#8, lastOp := op } := rfl

theorem execToDatetime_eq (s : State) (d : DateWords) (h : toFields s.cfg s.arg0 = d) :
    execToDatetime s =
      .next { s with res0 := d.dt0, res1 := d.dt1, res2 := d.dt2, code := 0x00#8, lastOp := 0x03#8 } := by
  rw [execToDatetime, h, next_setDate_finish]

theorem execClockNow_eq (s : State) (d : DateWords) (h : toFields s.cfg s.uptime = d) :
    execClockNow s = .next { s with
      res0 := d.dt0, res1 := d.dt1, res2 := d.dt2, res3 := s.uptime, code := 0x00#8, lastOp := 0x05#8 } := by
  rw [execClockNow, h]
  exact next_setDate_finish { s with res3 := s.uptime } 0x05#8 d

/-- CANCEL of a live handle releases its slot (R100). -/
theorem execCancel_of_live {s : State} (h : s.Live s.arg0) :
    execCancel s = .next (State.finish { s.release (handleSlot s.arg0) with res0 := 1#64 } 0x08#8 codeOk) := if_pos h

/-- CANCEL of any other handle is a no-op with RES0 = 0 (R100). -/
theorem execCancel_of_not_live {s : State} (h : ¬s.Live s.arg0) :
    execCancel s = .next (State.finish { s with res0 := 0#64 } 0x08#8 codeOk) := if_neg h

end Sys2Proof.Machine
end

