-- ==== Sys2Proof/Laws/Decode.lean ====
section
/-! SUPPORT. What the decoder of CMD words answers, and store data that fits its size. -/

namespace Sys2Proof

/-- A CMD word decodes to one of the eight commands or to the illegal word it is (R61, R62). -/
theorem decodeCommand_cases (w : Half) :
    (w = 1#32 ∧ decodeCommand w = .now) ∨ (w = 2#32 ∧ decodeCommand w = .elapsed) ∨
    (w = 3#32 ∧ decodeCommand w = .toDatetime) ∨ (w = 4#32 ∧ decodeCommand w = .fromDatetime) ∨
    (w = 5#32 ∧ decodeCommand w = .clockNow) ∨ (w = 6#32 ∧ decodeCommand w = .waitUntil) ∨
    (w = 7#32 ∧ decodeCommand w = .waitFor) ∨ (w = 8#32 ∧ decodeCommand w = .cancel) ∨
    decodeCommand w = .illegalCommand w := by
  unfold decodeCommand
  split_ifs <;> simp_all

/-- A 4-byte store's data has no bit above bit 31. -/
theorem fitsSize_storeData (n : Nat) (v : Word) : FitsSize n (storeData n v) := by
  intro hn
  rw [storeData, if_pos hn]; simp only [BitVec.toNat_setWidth]; omega

/-- Data that fits its size is carried unchanged. -/
theorem storeData_of_fits (n : Nat) (v : Word) (h : FitsSize n v) : storeData n v = v := by
  unfold storeData
  split
  · next hn =>
    apply BitVec.eq_of_toNat_eq
    have := h hn
    simp only [BitVec.toNat_setWidth]; omega
  · rfl

/-- A 32-bit datum has no bit above bit 31. -/
theorem setWidth_fits (v : Half) : FitsSize 4 (v.setWidth 64) := fun _ => by
  have := v.isLt
  rw [BitVec.toNat_setWidth]; omega

end Sys2Proof
end

