-- ==== Sys2Proof/Laws/State.lean ====
section
/-! SUPPORT. One lemma per field and update of the state, so that no proof unfolds a record update. -/

namespace Sys2Proof.Machine

@[simp] theorem State.finish_cfg (s : State) (op code : Byte) : (s.finish op code).cfg = s.cfg := rfl
@[simp] theorem State.finish_uptime (s : State) (op code : Byte) : (s.finish op code).uptime = s.uptime := rfl
@[simp] theorem State.finish_lastRaw (s : State) (op code : Byte) : (s.finish op code).lastRaw = s.lastRaw := rfl
@[simp] theorem State.finish_arg0 (s : State) (op code : Byte) : (s.finish op code).arg0 = s.arg0 := rfl
@[simp] theorem State.finish_arg1 (s : State) (op code : Byte) : (s.finish op code).arg1 = s.arg1 := rfl
@[simp] theorem State.finish_arg2 (s : State) (op code : Byte) : (s.finish op code).arg2 = s.arg2 := rfl
@[simp] theorem State.finish_res0 (s : State) (op code : Byte) : (s.finish op code).res0 = s.res0 := rfl
@[simp] theorem State.finish_res1 (s : State) (op code : Byte) : (s.finish op code).res1 = s.res1 := rfl
@[simp] theorem State.finish_res2 (s : State) (op code : Byte) : (s.finish op code).res2 = s.res2 := rfl
@[simp] theorem State.finish_res3 (s : State) (op code : Byte) : (s.finish op code).res3 = s.res3 := rfl
@[simp] theorem State.finish_code (s : State) (op code : Byte) : (s.finish op code).code = code := rfl
@[simp] theorem State.finish_lastOp (s : State) (op code : Byte) : (s.finish op code).lastOp = op := rfl
@[simp] theorem State.finish_slots (s : State) (op code : Byte) : (s.finish op code).slots = s.slots := rfl
@[simp] theorem State.finish_wakeLog (s : State) (op code : Byte) : (s.finish op code).wakeLog = s.wakeLog := rfl
@[simp] theorem State.finish_readLog (s : State) (op code : Byte) : (s.finish op code).readLog = s.readLog := rfl
@[simp] theorem State.finish_inputs (s : State) (op code : Byte) : (s.finish op code).inputs = s.inputs := rfl

@[simp] theorem State.reply_cfg (s : State) (r : Reply) : (s.reply r).cfg = s.cfg := rfl
@[simp] theorem State.reply_uptime (s : State) (r : Reply) : (s.reply r).uptime = s.uptime := rfl
@[simp] theorem State.reply_lastRaw (s : State) (r : Reply) : (s.reply r).lastRaw = s.lastRaw := rfl
@[simp] theorem State.reply_arg0 (s : State) (r : Reply) : (s.reply r).arg0 = s.arg0 := rfl
@[simp] theorem State.reply_arg1 (s : State) (r : Reply) : (s.reply r).arg1 = s.arg1 := rfl
@[simp] theorem State.reply_arg2 (s : State) (r : Reply) : (s.reply r).arg2 = s.arg2 := rfl
@[simp] theorem State.reply_res0 (s : State) (r : Reply) : (s.reply r).res0 = s.res0 := rfl
@[simp] theorem State.reply_res1 (s : State) (r : Reply) : (s.reply r).res1 = s.res1 := rfl
@[simp] theorem State.reply_res2 (s : State) (r : Reply) : (s.reply r).res2 = s.res2 := rfl
@[simp] theorem State.reply_res3 (s : State) (r : Reply) : (s.reply r).res3 = s.res3 := rfl
@[simp] theorem State.reply_code (s : State) (r : Reply) : (s.reply r).code = s.code := rfl
@[simp] theorem State.reply_lastOp (s : State) (r : Reply) : (s.reply r).lastOp = s.lastOp := rfl
@[simp] theorem State.reply_slots (s : State) (r : Reply) : (s.reply r).slots = s.slots := rfl
@[simp] theorem State.reply_wakeLog (s : State) (r : Reply) : (s.reply r).wakeLog = s.wakeLog := rfl
@[simp] theorem State.reply_readLog (s : State) (r : Reply) : (s.reply r).readLog = s.readLog ++ [r] := rfl
@[simp] theorem State.reply_inputs (s : State) (r : Reply) : (s.reply r).inputs = s.inputs := rfl

@[simp] theorem State.setDate_cfg (s : State) (d : DateWords) : (s.setDate d).cfg = s.cfg := rfl
@[simp] theorem State.setDate_uptime (s : State) (d : DateWords) : (s.setDate d).uptime = s.uptime := rfl
@[simp] theorem State.setDate_lastRaw (s : State) (d : DateWords) : (s.setDate d).lastRaw = s.lastRaw := rfl
@[simp] theorem State.setDate_arg0 (s : State) (d : DateWords) : (s.setDate d).arg0 = s.arg0 := rfl
@[simp] theorem State.setDate_arg1 (s : State) (d : DateWords) : (s.setDate d).arg1 = s.arg1 := rfl
@[simp] theorem State.setDate_arg2 (s : State) (d : DateWords) : (s.setDate d).arg2 = s.arg2 := rfl
@[simp] theorem State.setDate_res0 (s : State) (d : DateWords) : (s.setDate d).res0 = d.dt0 := rfl
@[simp] theorem State.setDate_res1 (s : State) (d : DateWords) : (s.setDate d).res1 = d.dt1 := rfl
@[simp] theorem State.setDate_res2 (s : State) (d : DateWords) : (s.setDate d).res2 = d.dt2 := rfl
@[simp] theorem State.setDate_res3 (s : State) (d : DateWords) : (s.setDate d).res3 = s.res3 := rfl
@[simp] theorem State.setDate_code (s : State) (d : DateWords) : (s.setDate d).code = s.code := rfl
@[simp] theorem State.setDate_lastOp (s : State) (d : DateWords) : (s.setDate d).lastOp = s.lastOp := rfl
@[simp] theorem State.setDate_slots (s : State) (d : DateWords) : (s.setDate d).slots = s.slots := rfl
@[simp] theorem State.setDate_wakeLog (s : State) (d : DateWords) : (s.setDate d).wakeLog = s.wakeLog := rfl
@[simp] theorem State.setDate_readLog (s : State) (d : DateWords) : (s.setDate d).readLog = s.readLog := rfl
@[simp] theorem State.setDate_inputs (s : State) (d : DateWords) : (s.setDate d).inputs = s.inputs := rfl

@[simp] theorem State.allocate_cfg (s : State) (i : Nat) (target waker : Word)
    : (s.allocate i target waker).cfg = s.cfg := rfl
@[simp] theorem State.allocate_uptime (s : State) (i : Nat) (target waker : Word)
    : (s.allocate i target waker).uptime = s.uptime := rfl
@[simp] theorem State.allocate_lastRaw (s : State) (i : Nat) (target waker : Word)
    : (s.allocate i target waker).lastRaw = s.lastRaw := rfl
@[simp] theorem State.allocate_arg0 (s : State) (i : Nat) (target waker : Word)
    : (s.allocate i target waker).arg0 = s.arg0 := rfl
@[simp] theorem State.allocate_arg1 (s : State) (i : Nat) (target waker : Word)
    : (s.allocate i target waker).arg1 = s.arg1 := rfl
@[simp] theorem State.allocate_arg2 (s : State) (i : Nat) (target waker : Word)
    : (s.allocate i target waker).arg2 = s.arg2 := rfl
@[simp] theorem State.allocate_res0 (s : State) (i : Nat) (target waker : Word)
    : (s.allocate i target waker).res0 = s.res0 := rfl
@[simp] theorem State.allocate_res1 (s : State) (i : Nat) (target waker : Word)
    : (s.allocate i target waker).res1 = s.res1 := rfl
@[simp] theorem State.allocate_res2 (s : State) (i : Nat) (target waker : Word)
    : (s.allocate i target waker).res2 = s.res2 := rfl
@[simp] theorem State.allocate_res3 (s : State) (i : Nat) (target waker : Word)
    : (s.allocate i target waker).res3 = s.res3 := rfl
@[simp] theorem State.allocate_code (s : State) (i : Nat) (target waker : Word)
    : (s.allocate i target waker).code = s.code := rfl
@[simp] theorem State.allocate_lastOp (s : State) (i : Nat) (target waker : Word)
    : (s.allocate i target waker).lastOp = s.lastOp := rfl
@[simp] theorem State.allocate_slots (s : State) (i : Nat) (target waker : Word)
    : (s.allocate i target waker).slots = s.slots.set i ⟨.pending, target, waker, nextGen (s.slot i).gen⟩ := rfl
@[simp] theorem State.allocate_wakeLog (s : State) (i : Nat) (target waker : Word)
    : (s.allocate i target waker).wakeLog = s.wakeLog := rfl
@[simp] theorem State.allocate_readLog (s : State) (i : Nat) (target waker : Word)
    : (s.allocate i target waker).readLog = s.readLog := rfl
@[simp] theorem State.allocate_inputs (s : State) (i : Nat) (target waker : Word)
    : (s.allocate i target waker).inputs = s.inputs := rfl

@[simp] theorem State.release_cfg (s : State) (i : Nat) : (s.release i).cfg = s.cfg := rfl
@[simp] theorem State.release_uptime (s : State) (i : Nat) : (s.release i).uptime = s.uptime := rfl
@[simp] theorem State.release_lastRaw (s : State) (i : Nat) : (s.release i).lastRaw = s.lastRaw := rfl
@[simp] theorem State.release_arg0 (s : State) (i : Nat) : (s.release i).arg0 = s.arg0 := rfl
@[simp] theorem State.release_arg1 (s : State) (i : Nat) : (s.release i).arg1 = s.arg1 := rfl
@[simp] theorem State.release_arg2 (s : State) (i : Nat) : (s.release i).arg2 = s.arg2 := rfl
@[simp] theorem State.release_res0 (s : State) (i : Nat) : (s.release i).res0 = s.res0 := rfl
@[simp] theorem State.release_res1 (s : State) (i : Nat) : (s.release i).res1 = s.res1 := rfl
@[simp] theorem State.release_res2 (s : State) (i : Nat) : (s.release i).res2 = s.res2 := rfl
@[simp] theorem State.release_res3 (s : State) (i : Nat) : (s.release i).res3 = s.res3 := rfl
@[simp] theorem State.release_code (s : State) (i : Nat) : (s.release i).code = s.code := rfl
@[simp] theorem State.release_lastOp (s : State) (i : Nat) : (s.release i).lastOp = s.lastOp := rfl
@[simp] theorem State.release_slots (s : State) (i : Nat)
    : (s.release i).slots = s.slots.set i (s.slot i).released := rfl
@[simp] theorem State.release_wakeLog (s : State) (i : Nat) : (s.release i).wakeLog = s.wakeLog := rfl
@[simp] theorem State.release_readLog (s : State) (i : Nat) : (s.release i).readLog = s.readLog := rfl
@[simp] theorem State.release_inputs (s : State) (i : Nat) : (s.release i).inputs = s.inputs := rfl

@[simp] theorem State.fire_cfg (s : State) : s.fire.cfg = s.cfg := rfl
@[simp] theorem State.fire_uptime (s : State) : s.fire.uptime = s.uptime := rfl
@[simp] theorem State.fire_lastRaw (s : State) : s.fire.lastRaw = s.lastRaw := rfl
@[simp] theorem State.fire_arg0 (s : State) : s.fire.arg0 = s.arg0 := rfl
@[simp] theorem State.fire_arg1 (s : State) : s.fire.arg1 = s.arg1 := rfl
@[simp] theorem State.fire_arg2 (s : State) : s.fire.arg2 = s.arg2 := rfl
@[simp] theorem State.fire_res0 (s : State) : s.fire.res0 = s.res0 := rfl
@[simp] theorem State.fire_res1 (s : State) : s.fire.res1 = s.res1 := rfl
@[simp] theorem State.fire_res2 (s : State) : s.fire.res2 = s.res2 := rfl
@[simp] theorem State.fire_res3 (s : State) : s.fire.res3 = s.res3 := rfl
@[simp] theorem State.fire_code (s : State) : s.fire.code = s.code := rfl
@[simp] theorem State.fire_lastOp (s : State) : s.fire.lastOp = s.lastOp := rfl
@[simp] theorem State.fire_slots (s : State) : s.fire.slots = s.slots.map (Slot.fired s.uptime) := rfl
@[simp] theorem State.fire_wakeLog (s : State) : s.fire.wakeLog = s.wakeLog ++ wakesFrom s.uptime 0 s.slots := rfl
@[simp] theorem State.fire_readLog (s : State) : s.fire.readLog = s.readLog := rfl
@[simp] theorem State.fire_inputs (s : State) : s.fire.inputs = s.inputs := rfl

@[simp] theorem State.advance_cfg (s : State) (raw : Word) : (s.advance raw).cfg = s.cfg := rfl
@[simp] theorem State.advance_uptime (s : State) (raw : Word)
    : (s.advance raw).uptime = saturatingAdd s.uptime (s.tickIncrement raw) := rfl
@[simp] theorem State.advance_lastRaw (s : State) (raw : Word) : (s.advance raw).lastRaw = s.nextLastRaw raw := rfl
@[simp] theorem State.advance_arg0 (s : State) (raw : Word) : (s.advance raw).arg0 = s.arg0 := rfl
@[simp] theorem State.advance_arg1 (s : State) (raw : Word) : (s.advance raw).arg1 = s.arg1 := rfl
@[simp] theorem State.advance_arg2 (s : State) (raw : Word) : (s.advance raw).arg2 = s.arg2 := rfl
@[simp] theorem State.advance_res0 (s : State) (raw : Word) : (s.advance raw).res0 = s.res0 := rfl
@[simp] theorem State.advance_res1 (s : State) (raw : Word) : (s.advance raw).res1 = s.res1 := rfl
@[simp] theorem State.advance_res2 (s : State) (raw : Word) : (s.advance raw).res2 = s.res2 := rfl
@[simp] theorem State.advance_res3 (s : State) (raw : Word) : (s.advance raw).res3 = s.res3 := rfl
@[simp] theorem State.advance_code (s : State) (raw : Word) : (s.advance raw).code = s.code := rfl
@[simp] theorem State.advance_lastOp (s : State) (raw : Word) : (s.advance raw).lastOp = s.lastOp := rfl
@[simp] theorem State.advance_slots (s : State) (raw : Word) : (s.advance raw).slots = s.slots := rfl
@[simp] theorem State.advance_wakeLog (s : State) (raw : Word) : (s.advance raw).wakeLog = s.wakeLog := rfl
@[simp] theorem State.advance_readLog (s : State) (raw : Word) : (s.advance raw).readLog = s.readLog := rfl
@[simp] theorem State.advance_inputs (s : State) (raw : Word) : (s.advance raw).inputs = s.inputs := rfl

@[simp] theorem State.setArg_cfg (s : State) (k : Fin 3) (v : Word) : (s.setArg k v).cfg = s.cfg := by
  fin_cases k <;> rfl
@[simp] theorem State.setArg_uptime (s : State) (k : Fin 3) (v : Word) : (s.setArg k v).uptime = s.uptime := by
  fin_cases k <;> rfl
@[simp] theorem State.setArg_lastRaw (s : State) (k : Fin 3) (v : Word) : (s.setArg k v).lastRaw = s.lastRaw := by
  fin_cases k <;> rfl
@[simp] theorem State.setArg_res0 (s : State) (k : Fin 3) (v : Word) : (s.setArg k v).res0 = s.res0 := by
  fin_cases k <;> rfl
@[simp] theorem State.setArg_res1 (s : State) (k : Fin 3) (v : Word) : (s.setArg k v).res1 = s.res1 := by
  fin_cases k <;> rfl
@[simp] theorem State.setArg_res2 (s : State) (k : Fin 3) (v : Word) : (s.setArg k v).res2 = s.res2 := by
  fin_cases k <;> rfl
@[simp] theorem State.setArg_res3 (s : State) (k : Fin 3) (v : Word) : (s.setArg k v).res3 = s.res3 := by
  fin_cases k <;> rfl
@[simp] theorem State.setArg_code (s : State) (k : Fin 3) (v : Word) : (s.setArg k v).code = s.code := by
  fin_cases k <;> rfl
@[simp] theorem State.setArg_lastOp (s : State) (k : Fin 3) (v : Word) : (s.setArg k v).lastOp = s.lastOp := by
  fin_cases k <;> rfl
@[simp] theorem State.setArg_slots (s : State) (k : Fin 3) (v : Word) : (s.setArg k v).slots = s.slots := by
  fin_cases k <;> rfl
@[simp] theorem State.setArg_wakeLog (s : State) (k : Fin 3) (v : Word) : (s.setArg k v).wakeLog = s.wakeLog := by
  fin_cases k <;> rfl
@[simp] theorem State.setArg_readLog (s : State) (k : Fin 3) (v : Word) : (s.setArg k v).readLog = s.readLog := by
  fin_cases k <;> rfl
@[simp] theorem State.setArg_inputs (s : State) (k : Fin 3) (v : Word) : (s.setArg k v).inputs = s.inputs := by
  fin_cases k <;> rfl

@[simp] theorem State.arg_setArg (s : State) (k : Fin 3) (v : Word) : (s.setArg k v).arg k = v := by
  fin_cases k <;> rfl

theorem State.arg_setArg_of_ne (s : State) {j k : Fin 3} (v : Word) (h : j ≠ k) : (s.setArg k v).arg j = s.arg j := by
  fin_cases j <;> fin_cases k <;> first | rfl | exact absurd rfl h

@[simp] theorem Slot.released_state (x : Slot) : x.released.state = .free := rfl
@[simp] theorem Slot.released_deadline (x : Slot) : x.released.deadline = x.deadline := rfl
@[simp] theorem Slot.released_waker (x : Slot) : x.released.waker = x.waker := rfl
@[simp] theorem Slot.released_gen (x : Slot) : x.released.gen = x.gen := rfl

@[simp] theorem Slot.fired_gen (u : Word) (x : Slot) : (x.fired u).gen = x.gen := by
  unfold Slot.fired; split <;> rfl

end Sys2Proof.Machine
end

