-- ==== Sys2Proof/Laws/Ops.lean ====
section
/-! SUPPORT. What each shared operation can do, said once. -/

namespace Sys2Proof.Machine

theorem selectHalf_lo_toNat (v : Word) : (selectHalf .lo v).toNat = v.toNat % 2 ^ 32 := by
  simp [selectHalf, BitVec.extractLsb'_toNat]

theorem selectHalf_hi_toNat (v : Word) : (selectHalf .hi v).toNat = v.toNat / 2 ^ 32 := by
  have := v.isLt
  simp only [selectHalf, BitVec.extractLsb'_toNat, Nat.shiftRight_eq_div_pow]
  omega

/-- A word is its two halves (R39). -/
theorem hi_append_lo (v : Word) : selectHalf .hi v ++ selectHalf .lo v = v := by
  apply BitVec.eq_of_toNat_eq
  have h := (selectHalf .lo v).isLt
  rw [BitVec.toNat_append, ← Nat.shiftLeft_add_eq_or_of_lt h, selectHalf_lo_toNat, selectHalf_hi_toNat,
    Nat.shiftLeft_eq]
  omega

theorem replaceHalf_lo_toNat (old : Word) (v : Half) :
    (replaceHalf .lo old v).toNat = v.toNat + 2 ^ 32 * (old.toNat / 2 ^ 32) := by
  rw [replaceHalf, BitVec.toNat_append, ← Nat.shiftLeft_add_eq_or_of_lt v.isLt, selectHalf_hi_toNat, Nat.shiftLeft_eq]
  omega

theorem replaceHalf_hi_toNat (old : Word) (v : Half) :
    (replaceHalf .hi old v).toNat = old.toNat % 2 ^ 32 + 2 ^ 32 * v.toNat := by
  rw [replaceHalf, BitVec.toNat_append, ← Nat.shiftLeft_add_eq_or_of_lt (selectHalf .lo old).isLt,
    selectHalf_lo_toNat, Nat.shiftLeft_eq]
  omega

/-- `saturatingAdd` never wraps (R79). -/
theorem saturatingAdd_toNat (u : Word) (inc : Nat) : (saturatingAdd u inc).toNat = min (u.toNat + inc) max64 := by
  rw [saturatingAdd, BitVec.toNat_ofNat]
  exact Nat.mod_eq_of_lt (by unfold max64; omega)

theorem lowBits_toNat (width : Nat) (v : Word) : (lowBits width v).toNat = v.toNat % 2 ^ width := by
  rw [lowBits, BitVec.toNat_ofNat]
  exact Nat.mod_eq_of_lt (lt_of_le_of_lt (Nat.mod_le _ _) v.isLt)

theorem nextGen_ne_zero (g : Gen) : nextGen g ≠ 0#48 := by
  unfold nextGen
  split
  · decide
  · next h =>
    intro h0
    apply h
    apply BitVec.eq_of_toNat_eq
    have := congrArg BitVec.toNat h0
    have := g.isLt
    simp only [BitVec.toNat_add, BitVec.toNat_ofNat] at *
    omega

theorem handleSlot_handleOf (g : Gen) (i : Nat) (h : i < 65536) : handleSlot (handleOf g i) = i := by
  have h2 := (BitVec.ofNat 16 i).isLt
  simp only [handleSlot, handleOf, BitVec.extractLsb'_toNat, BitVec.toNat_append, BitVec.toNat_ofNat]
  rw [← Nat.shiftLeft_add_eq_or_of_lt (by omega), Nat.shiftLeft_eq]
  omega

theorem handleGen_handleOf (g : Gen) (i : Nat) : handleGen (handleOf g i) = g := by
  apply BitVec.eq_of_toNat_eq
  have := g.isLt
  simp only [handleGen, handleOf, BitVec.extractLsb'_toNat, BitVec.toNat_append, BitVec.toNat_ofNat]
  rw [← Nat.shiftLeft_add_eq_or_of_lt (by omega), Nat.shiftLeft_eq, Nat.shiftRight_eq_div_pow]
  omega

theorem handleSlot_eq (h : Word) : handleSlot h = h.toNat % 2 ^ 16 := by
  simp [handleSlot, BitVec.extractLsb'_toNat]

theorem handleGen_toNat (h : Word) : (handleGen h).toNat = h.toNat / 2 ^ 16 := by
  have := h.isLt
  simp only [handleGen, BitVec.extractLsb'_toNat, Nat.shiftRight_eq_div_pow]
  omega

/-- `firstFree` is the lowest FREE slot (R93). -/
theorem firstFree_eq_some {l : List Slot} {i : Nat} (h : firstFree l = some i) :
    ∃ x, l[i]? = some x ∧ x.state = .free ∧ ∀ j, j < i → ∀ y, l[j]? = some y → y.state = .pending := by
  induction l generalizing i with
  | nil => exact nomatch h
  | cons a l ih =>
    rw [firstFree] at h
    split at h
    · next ha =>
      injection h with h; subst h
      exact ⟨a, rfl, ha, fun j hj => absurd hj (Nat.not_lt_zero j)⟩
    · next ha =>
      obtain ⟨k, hk, rfl⟩ := Option.map_eq_some_iff.1 h
      obtain ⟨x, hx, hf, hj⟩ := ih hk
      refine ⟨x, hx, hf, fun j hlt y hy => ?_⟩
      cases j with
      | zero => obtain rfl := Option.some.inj hy; exact ha
      | succ j => exact hj j (by omega) y hy

/-- `firstFree` answers none exactly when every slot is PENDING (R108). -/
theorem firstFree_eq_none {l : List Slot} : firstFree l = none ↔ ∀ x ∈ l, x.state = .pending := by
  induction l with
  | nil => simp [firstFree]
  | cons a l ih =>
    rw [firstFree]
    split
    · next ha => simp [ha]
    · next ha => simp [ha, ih]

/-- The lowest FREE slot is the one `firstFree` answers (R93). -/
theorem firstFree_of_lowest {l : List Slot} {i : Nat} {x : Slot} (hx : l[i]? = some x) (hf : x.state = .free)
    (hj : ∀ j, j < i → ∀ y, l[j]? = some y → y.state = .pending) : firstFree l = some i := by
  cases h : firstFree l with
  | none =>
    have := firstFree_eq_none.1 h x (List.mem_of_getElem? hx)
    rw [hf] at this; exact nomatch this
  | some k =>
    obtain ⟨y, hy, hyf, hk⟩ := firstFree_eq_some h
    rcases Nat.lt_trichotomy k i with h1 | h1 | h1
    · have := hj k h1 y hy; rw [hyf] at this; exact nomatch this
    · rw [h1]
    · have := hk i h1 x hx; rw [hf] at this; exact nomatch this

theorem State.slot_of_getElem? {s : State} {i : Nat} {x : Slot} (h : s.slots[i]? = some x) : s.slot i = x := by
  rw [State.slot, List.getD_eq_getElem?_getD, h]; rfl

/-- A slot that is PENDING is one of the file. -/
theorem State.getElem?_of_pending {s : State} {i : Nat} (h : (s.slot i).state = .pending) :
    s.slots[i]? = some (s.slot i) := by
  unfold State.slot at *
  rw [List.getD_eq_getElem?_getD] at *
  cases h1 : s.slots[i]? with
  | none => rw [h1] at h; exact nomatch h
  | some x => rfl

/-- The WAKE events of `fire()` are those of the due slots, in ascending order (R94). -/
theorem wakesFrom_eq (u : Word) (i : Nat) (l : List Slot) : wakesFrom u i l =
    (l.zipIdx i).filterMap fun p => if p.1.due u then some ⟨p.1.waker, handleOf p.1.gen p.2⟩ else none := by
  induction l generalizing i with
  | nil => rfl
  | cons x l ih =>
    rw [wakesFrom, List.zipIdx_cons, List.filterMap_cons]
    split <;> simp only [ih]

/-- Every WAKE event of `fire()` comes from a due slot and carries its waker and its handle. -/
theorem mem_wakesFrom {u : Word} {i : Nat} {l : List Slot} {e : Wake} (h : e ∈ wakesFrom u i l) :
    ∃ j x, l[j]? = some x ∧ x.due u ∧ e = ⟨x.waker, handleOf x.gen (i + j)⟩ := by
  induction l generalizing i with
  | nil => exact nomatch h
  | cons a l ih =>
    rw [wakesFrom] at h
    have key : e ∈ wakesFrom u (i + 1) l →
        ∃ j x, (a :: l)[j]? = some x ∧ x.due u ∧ e = ⟨x.waker, handleOf x.gen (i + j)⟩ := by
      intro h
      obtain ⟨j, x, hx, hd, he⟩ := ih h
      exact ⟨j + 1, x, hx, hd, by rw [he]; congr 2; omega⟩
    split at h
    · next hd =>
      rcases List.mem_cons.1 h with h | h
      · exact ⟨0, a, rfl, hd, h⟩
      · exact key h
    · exact key h

theorem Slot.fired_of_due {u : Word} {x : Slot} (h : x.due u) : x.fired u = x.released := if_pos h

theorem Slot.fired_of_not_due {u : Word} {x : Slot} (h : ¬x.due u) : x.fired u = x := if_neg h

/-- After `fire()` a slot that is still PENDING is unchanged and its DEADLINE lies ahead (R29, R94). -/
theorem Slot.fired_pending {u : Word} {x : Slot} (h : (x.fired u).state = .pending) :
    x.fired u = x ∧ u < x.deadline := by
  by_cases hd : x.due u
  · rw [Slot.fired_of_due hd] at h; exact nomatch h
  · rw [Slot.fired_of_not_due hd] at h ⊢
    exact ⟨rfl, BitVec.not_le.1 fun hle => hd ⟨h, hle⟩⟩

/-- Where a read completes, and with what (R41, R43). -/
theorem State.memRead_eq_some {s : State} {off n : Nat} {r : Reply} (h : s.memRead off n = some r) :
    AlignedAccess off n ∧ off < 0x80 ∧ ∃ v, s.windowReg (off / 8) = some v ∧
      r = if n = 8 then .word v else .half (selectHalf (halfOf off) v) := by
  unfold State.memRead at h
  split at h
  · exact nomatch h
  next h1 =>
  split at h
  · exact nomatch h
  split at h
  · exact nomatch h
  rw [not_or, not_not] at h1
  revert h
  cases hv : s.windowReg (off / 8) with
  | none => exact fun h => nomatch h
  | some v => exact fun h => ⟨h1.1, by omega, v, rfl, (Option.some.inj h).symm⟩

/-- A read ends in the next state with its reply, or in BusError. -/
theorem busLoad_cases (off n : Nat) (s : State) :
    (∃ r, s.memRead off n = some r ∧ busLoad off n s = .next (s.reply r)) ∨
      (s.memRead off n = none ∧ busLoad off n s = .fault (.busError off)) := by
  unfold busLoad
  cases s.memRead off n with
  | none => exact .inr ⟨rfl, rfl⟩
  | some r => exact .inl ⟨r, rfl, rfl⟩

/-- Every outcome of WAIT_UNTIL's body (R98): READY, NO_SLOT, or the registration of the lowest free slot. -/
theorem State.wait_cases (s : State) (op : Byte) (target waker : Word) :
    (target ≤ s.uptime ∧
      s.wait op target waker = State.finish { s with res0 := 0#64, res1 := target } op codeReady) ∨
    (s.uptime < target ∧ (∀ x ∈ s.slots, x.state = .pending) ∧
      s.wait op target waker = s.finish op codeNoSlot) ∨
    (s.uptime < target ∧ ∃ i x, s.slots[i]? = some x ∧ x.state = .free ∧
      (∀ j, j < i → ∀ y, s.slots[j]? = some y → y.state = .pending) ∧
      s.wait op target waker = State.finish { s with
        slots := s.slots.set i ⟨.pending, target, waker, nextGen x.gen⟩
        res0 := handleOf (nextGen x.gen) i, res1 := target } op codeOk) := by
  unfold State.wait
  split
  · next h => exact .inl ⟨h, rfl⟩
  · next h =>
    have hlt := BitVec.not_le.1 h
    split
    · next hn => exact .inr (.inl ⟨hlt, firstFree_eq_none.1 hn, rfl⟩)
    · next i hi =>
      obtain ⟨x, hx, hf, hj⟩ := firstFree_eq_some hi
      refine .inr (.inr ⟨hlt, i, x, hx, hf, hj, ?_⟩)
      have hs := State.slot_of_getElem? hx
      have hlen : i < s.slots.length := (List.getElem?_eq_some_iff.1 hx).1
      have ha : ((s.allocate i target waker).slot i).gen = nextGen x.gen := by
        rw [State.slot, State.allocate_slots, hs, List.getD_eq_getElem?_getD, List.getElem?_set_self hlen]; rfl
      have hh : (s.allocate i target waker).handle i = handleOf (nextGen x.gen) i := by rw [State.handle, ha]
      dsimp only
      rw [hh]
      simp only [State.allocate, hs]

end Sys2Proof.Machine
end

