-- ==== Sys2Proof/Laws/Commands.lean ====
section
/-! SUPPORT. What an instruction can do, said once: every next state of `exec` is a TICK's, a read's, an ARG write's or
a command's. -/

namespace Sys2Proof.Machine

/-- The slot files a command may leave. -/
inductive SlotChange (s : State) : List Slot → Prop where
  | same : SlotChange s s.slots
  | register (i : Nat) (x : Slot) (target waker : Word) (hx : s.slots[i]? = some x) (hf : x.state = .free)
      (ht : s.uptime < target) : SlotChange s (s.slots.set i ⟨.pending, target, waker, nextGen x.gen⟩)
  | release (i : Nat) : SlotChange s (s.slots.set i (s.slot i).released)

/-- A command writes RES, STATUS and at most one slot; one that ends in an error code writes STATUS alone. -/
structure CommandEffect (s t : State) : Prop where
  shape : t =
    { s with res0 := t.res0, res1 := t.res1, res2 := t.res2, res3 := t.res3, code := t.code, lastOp := t.lastOp,
             slots := t.slots }
  outcome : t.code = codeOk ∨ t.code = codeReady ∨
    (t.code = codeIllegalCommand ∨ t.code = codeInvalidDeadline ∨ t.code = codeOutOfRange ∨ t.code = codeNoSlot) ∧
      t = { s with code := t.code, lastOp := t.lastOp }
  slotChange : SlotChange s t.slots

theorem CommandEffect.code_mem {s t : State} (h : CommandEffect s t) : t.code ∈ statusCodes := by
  rcases h.outcome with h | h | ⟨h | h | h | h, -⟩ <;> rw [h] <;> decide

theorem CommandEffect.of_result {s t : State}
    (h : t =
      { s with res0 := t.res0, res1 := t.res1, res2 := t.res2, res3 := t.res3, code := t.code, lastOp := t.lastOp })
    (hc : t.code = codeOk ∨ t.code = codeReady) : CommandEffect s t := by
  have hs : t.slots = s.slots := by rw [h]
  refine ⟨by rw [hs]; exact h, hc.imp_right .inl, ?_⟩
  rw [hs]; exact .same

theorem CommandEffect.of_error (s : State) (op code : Byte)
    (h : code = codeIllegalCommand ∨ code = codeInvalidDeadline ∨ code = codeOutOfRange ∨ code = codeNoSlot) :
    CommandEffect s (s.finish op code) :=
  ⟨rfl, .inr (.inr ⟨h, rfl⟩), .same⟩

theorem wait_effect (s : State) (op : Byte) (target waker : Word) : CommandEffect s (s.wait op target waker) := by
  rcases s.wait_cases op target waker with ⟨-, h⟩ | ⟨-, -, h⟩ | ⟨hlt, i, x, hx, hf, -, h⟩ <;> rw [h]
  · exact .of_result (by rfl) (.inr rfl)
  · exact .of_error _ _ _ (.inr (.inr (.inr rfl)))
  · exact ⟨rfl, .inl rfl, .register i x target waker hx hf hlt⟩

/-- Issuing a command is executing what its word decodes to (R46). -/
theorem issueCommand_eq (w : Half) (s : State) : issueCommand w s = exec (decodeCommand w) s := by
  rw [issueCommand]
  rcases decodeCommand_cases w with ⟨-, h⟩ | ⟨-, h⟩ | ⟨-, h⟩ | ⟨-, h⟩ | ⟨-, h⟩ | ⟨-, h⟩ | ⟨-, h⟩ | ⟨-, h⟩ | h <;>
    rw [h] <;> rfl

/-- Everything a CMD word's command can do. -/
theorem command_effect {w : Half} {s t : State} (h : exec (decodeCommand w) s = .next t) : CommandEffect s t := by
  rcases decodeCommand_cases w with ⟨-, hw⟩ | ⟨-, hw⟩ | ⟨-, hw⟩ | ⟨-, hw⟩ | ⟨-, hw⟩ | ⟨-, hw⟩ | ⟨-, hw⟩ | ⟨-, hw⟩ | hw <;>
    rw [hw] at h
  · obtain rfl := Host.Outcome.next.inj h; exact .of_result (by rfl) (.inl rfl)
  · obtain rfl := Host.Outcome.next.inj h; exact .of_result (by rfl) (.inl rfl)
  · rw [exec, execToDatetime_eq s _ rfl] at h
    obtain rfl := Host.Outcome.next.inj h; exact .of_result (by rfl) (.inl rfl)
  · rw [exec, execFromDatetime] at h
    split at h
    · obtain rfl := Host.Outcome.next.inj h; exact .of_error _ _ _ (.inr (.inr (.inl rfl)))
    · obtain rfl := Host.Outcome.next.inj h; exact .of_result (by rfl) (.inl rfl)
  · rw [exec, execClockNow_eq s _ rfl] at h
    obtain rfl := Host.Outcome.next.inj h; exact .of_result (by rfl) (.inl rfl)
  · obtain rfl := Host.Outcome.next.inj h; exact wait_effect _ _ _ _
  · rw [exec, execWaitFor] at h
    split at h
    · obtain rfl := Host.Outcome.next.inj h; exact .of_error _ _ _ (.inr (.inl rfl))
    · obtain rfl := Host.Outcome.next.inj h; exact wait_effect _ _ _ _
  · rw [exec, execCancel] at h
    split at h
    · obtain rfl := Host.Outcome.next.inj h; exact ⟨rfl, .inl rfl, .release _⟩
    · obtain rfl := Host.Outcome.next.inj h; exact .of_result (by rfl) (.inl rfl)
  · obtain rfl := Host.Outcome.next.inj h; exact .of_error _ _ _ (.inl rfl)

theorem busLoad_next {off n : Nat} {s t : State} (h : busLoad off n s = .next t) : ∃ r, t = s.reply r := by
  rcases busLoad_cases off n s with ⟨r, -, h'⟩ | ⟨-, h'⟩ <;> rw [h'] at h
  · exact ⟨r, (Host.Outcome.next.inj h).symm⟩
  · exact nomatch h

/-- Everything an instruction can do. -/
theorem exec_next {i : Instr} {s t : State} (h : exec i s = .next t) :
    (∃ raw, i = .tick raw ∧ t = (s.advance raw).fire) ∨
    ((∀ raw, i ≠ .tick raw) ∧ ((∃ r, t = s.reply r) ∨ CommandEffect s t)) ∨
    (∃ k v, ((∃ v64, i = .st64Arg k v64) ∨ ∃ half v32, i = .st32Arg k half v32) ∧ t = s.setArg k v) := by
  have read : ∀ {off n}, (∀ raw, i ≠ .tick raw) → busLoad off n s = .next t →
      ((∀ raw, i ≠ .tick raw) ∧ ((∃ r, t = s.reply r) ∨ CommandEffect s t)) := fun hi h => ⟨hi, .inl (busLoad_next h)⟩
  have command : ∀ w, (∀ raw, i ≠ .tick raw) → exec (decodeCommand w) s = .next t →
      ((∀ raw, i ≠ .tick raw) ∧ ((∃ r, t = s.reply r) ∨ CommandEffect s t)) :=
    fun _ hi h => ⟨hi, .inr (command_effect h)⟩
  cases i with
  | tick raw => exact .inl ⟨raw, rfl, (Host.Outcome.next.inj h).symm⟩
  | st64Arg k v => exact .inr (.inr ⟨k, _, .inl ⟨v, rfl⟩, (Host.Outcome.next.inj h).symm⟩)
  | st32Arg k half v => exact .inr (.inr ⟨k, _, .inr ⟨half, v, rfl⟩, (Host.Outcome.next.inj h).symm⟩)
  | ld64Uptime => exact .inr (.inl (read (fun _ => nofun) (show busLoad 0x00 8 s = .next t from h)))
  | ld32Uptime half => exact .inr (.inl (read (fun _ => nofun) (show busLoad (halfOffset half) 4 s = .next t from h)))
  | ld64 off => exact .inr (.inl (read (fun _ => nofun) (show busLoad off 8 s = .next t from h)))
  | ld32 off => exact .inr (.inl (read (fun _ => nofun) (show busLoad off 4 s = .next t from h)))
  | stOther => exact nomatch h
  | badAccess => exact nomatch h
  | st32Cmd w =>
    have h : issueCommand w s = .next t := h
    rw [issueCommand_eq] at h
    exact .inr (.inl (command w (fun _ => nofun) h))
  | illegalCommand w =>
    refine .inr (.inl ⟨fun _ => nofun, .inr ?_⟩)
    obtain rfl := Host.Outcome.next.inj h; exact .of_error _ _ _ (.inl rfl)
  | now => exact .inr (.inl (command 1#32 (fun _ => nofun) h))
  | elapsed => exact .inr (.inl (command 2#32 (fun _ => nofun) h))
  | toDatetime => exact .inr (.inl (command 3#32 (fun _ => nofun) h))
  | fromDatetime => exact .inr (.inl (command 4#32 (fun _ => nofun) h))
  | clockNow => exact .inr (.inl (command 5#32 (fun _ => nofun) h))
  | waitUntil => exact .inr (.inl (command 6#32 (fun _ => nofun) h))
  | waitFor => exact .inr (.inl (command 7#32 (fun _ => nofun) h))
  | cancel => exact .inr (.inl (command 8#32 (fun _ => nofun) h))

end Sys2Proof.Machine
end

