-- ==== Sys2Proof/Laws/Dates.lean ====
section
/-! SUPPORT. The packed date words (R64): each field reads back what was packed, and a word is made of its fields. -/

namespace Sys2Proof.Machine

theorem packDate_toNat (y m d : Nat) : (packDate y m d).toNat =
    y % 2 ^ 48 + 2 ^ 48 * (m % 2 ^ 8) + 2 ^ 56 * (d % 2 ^ 8) := by
  have h1 := Nat.mod_lt y (show 0 < 2 ^ 48 by decide)
  have h2 := Nat.mod_lt m (show 0 < 2 ^ 8 by decide)
  simp only [packDate, BitVec.toNat_append, BitVec.toNat_ofNat]
  rw [← Nat.shiftLeft_add_eq_or_of_lt h1, ← Nat.shiftLeft_add_eq_or_of_lt h2]
  simp only [Nat.shiftLeft_eq]; omega

theorem packTime_toNat (sod : Nat) (h : sod < 86400) : (packTime sod).toNat =
    sod / 3600 + 2 ^ 8 * (sod % 3600 / 60) + 2 ^ 16 * (sod % 60) := by
  have h1 : sod / 3600 < 2 ^ 8 := by omega
  have h2 : sod % 3600 / 60 < 2 ^ 8 := by omega
  have h3 : sod % 60 < 2 ^ 8 := by omega
  simp only [packTime, BitVec.toNat_append, BitVec.toNat_ofNat, Nat.mod_eq_of_lt h1, Nat.mod_eq_of_lt h2,
    Nat.mod_eq_of_lt h3]
  rw [← Nat.shiftLeft_add_eq_or_of_lt h1, ← Nat.shiftLeft_add_eq_or_of_lt h2, ← Nat.shiftLeft_add_eq_or_of_lt h3]
  simp only [Nat.shiftLeft_eq]; omega

theorem dtYear_eq (w : DateWords) : dtYear w = w.dt0.toNat % 2 ^ 48 := by
  simp [dtYear, BitVec.extractLsb'_toNat]

theorem dtMonth_eq (w : DateWords) : dtMonth w = w.dt0.toNat / 2 ^ 48 % 2 ^ 8 := by
  simp [dtMonth, BitVec.extractLsb'_toNat, Nat.shiftRight_eq_div_pow]

theorem dtDay_eq (w : DateWords) : dtDay w = w.dt0.toNat / 2 ^ 56 := by
  simp [dtDay, BitVec.extractLsb'_toNat, Nat.shiftRight_eq_div_pow]; omega

theorem dtHour_eq (w : DateWords) : dtHour w = w.dt1.toNat % 2 ^ 8 := by
  simp [dtHour, BitVec.extractLsb'_toNat]

theorem dtMinute_eq (w : DateWords) : dtMinute w = w.dt1.toNat / 2 ^ 8 % 2 ^ 8 := by
  simp [dtMinute, BitVec.extractLsb'_toNat, Nat.shiftRight_eq_div_pow]

theorem dtSecond_eq (w : DateWords) : dtSecond w = w.dt1.toNat / 2 ^ 16 % 2 ^ 8 := by
  simp [dtSecond, BitVec.extractLsb'_toNat, Nat.shiftRight_eq_div_pow]

theorem dtReserved_eq (w : DateWords) : dtReserved w = w.dt1.toNat / 2 ^ 24 := by
  simp [dtReserved, BitVec.extractLsb'_toNat, Nat.shiftRight_eq_div_pow]; omega

/-- DT0 is made of its fields. -/
theorem packDate_fields (w : DateWords) : packDate (dtYear w) (dtMonth w) (dtDay w) = w.dt0 := by
  apply BitVec.eq_of_toNat_eq
  have h := w.dt0.isLt
  rw [packDate_toNat, dtYear_eq, dtMonth_eq, dtDay_eq]
  generalize w.dt0.toNat = n at *
  omega

/-- DT1 is made of its fields, where they are in range and the reserved bits are 0. -/
theorem packTime_fields (w : DateWords) (hh : dtHour w ≤ 23) (hm : dtMinute w ≤ 59) (hs : dtSecond w ≤ 59)
    (hr : dtReserved w = 0) : packTime (dtHour w * 3600 + dtMinute w * 60 + dtSecond w) = w.dt1 := by
  apply BitVec.eq_of_toNat_eq
  rw [packTime_toNat _ (by omega)]
  rw [show (dtHour w * 3600 + dtMinute w * 60 + dtSecond w) / 3600 = dtHour w by omega,
    show (dtHour w * 3600 + dtMinute w * 60 + dtSecond w) % 3600 / 60 = dtMinute w by omega,
    show (dtHour w * 3600 + dtMinute w * 60 + dtSecond w) % 60 = dtSecond w by omega]
  rw [dtReserved_eq] at hr
  rw [dtHour_eq, dtMinute_eq, dtSecond_eq]
  generalize w.dt1.toNat = n at *
  omega

theorem monthDays_le (y m : Nat) : monthDays y m ≤ 31 := by
  unfold monthDays; split <;> first | omega | (split <;> omega)

theorem le_daysBeforeYear (k : Nat) : 365 * k ≤ daysBeforeYear (1970 + k) := by
  induction k with
  | zero => exact Nat.zero_le _
  | succ k ih =>
    rw [← Nat.add_assoc, daysBeforeYear_succ _ (Nat.le_add_right _ _)]
    have := (yearDays_bounds (1970 + k)).1
    omega

/-- A year has at least 365 days, so a bounded day number has a bounded year. -/
theorem year_le_of_daysBeforeYear_le {y d : Nat} (h : daysBeforeYear y ≤ d) : 365 * y ≤ d + 365 * 1970 := by
  rcases Nat.lt_or_ge y 1970 with h1 | h1
  · omega
  · obtain ⟨k, rfl⟩ := Nat.exists_eq_add_of_le h1
    have := le_daysBeforeYear k
    omega

theorem toFields_dt0 (c : Config) (u : Word) : (toFields c u).dt0 =
    packDate (civil (secondsAt c u / 86400)).1 (civil (secondsAt c u / 86400)).2.1
      (civil (secondsAt c u / 86400)).2.2 := rfl

theorem toFields_dt1 (c : Config) (u : Word) : (toFields c u).dt1 = packTime (secondsAt c u % 86400) := rfl

theorem toFields_dt2 (c : Config) (u : Word) : (toFields c u).dt2 = BitVec.ofNat 64 (u.toNat % c.freq.toNat) := rfl

theorem secondsAt_lt (c : Config) (u : Word) : secondsAt c u < 2 ^ 65 := by
  have h1 := c.epoch.isLt
  have h2 := u.isLt
  have h3 := Nat.div_le_self u.toNat c.freq.toNat
  unfold secondsAt; omega

/-- The date fields of `toFields` are those of the civil date: no field overflows its bits (R87). -/
theorem toFields_date (c : Config) (u : Word) :
    dtYear (toFields c u) = (civil (secondsAt c u / 86400)).1 ∧
      dtMonth (toFields c u) = (civil (secondsAt c u / 86400)).2.1 ∧
      dtDay (toFields c u) = (civil (secondsAt c u / 86400)).2.2 := by
  have hs := secondsAt_lt c u
  obtain ⟨h1, h2, h3, h4, h5, h6, -⟩ := civil_spec (secondsAt c u / 86400)
  have h7 := year_le_of_daysBeforeYear_le h2
  have h8 := le_trans h6 (monthDays_le _ _)
  have h9 : secondsAt c u / 86400 < 2 ^ 49 := by omega
  rw [dtYear_eq, dtMonth_eq, dtDay_eq, toFields_dt0, packDate_toNat]
  generalize secondsAt c u / 86400 = d at *
  generalize (civil d).1 = y at *
  generalize (civil d).2.1 = m at *
  generalize (civil d).2.2 = k at *
  refine ⟨?_, ?_, ?_⟩ <;> omega

/-- The time fields of `toFields` (R87). -/
theorem toFields_time (c : Config) (u : Word) :
    dtHour (toFields c u) = secondsAt c u % 86400 / 3600 ∧
      dtMinute (toFields c u) = secondsAt c u % 86400 % 3600 / 60 ∧
      dtSecond (toFields c u) = secondsAt c u % 86400 % 60 ∧ dtReserved (toFields c u) = 0 := by
  have h : secondsAt c u % 86400 < 86400 := Nat.mod_lt _ (by decide)
  rw [dtHour_eq, dtMinute_eq, dtSecond_eq, dtReserved_eq, toFields_dt1, packTime_toNat _ h]
  generalize secondsAt c u % 86400 = d at *
  have h1 : d / 3600 < 2 ^ 8 := by omega
  have h2 : d % 3600 / 60 < 2 ^ 8 := by omega
  have h3 : d % 60 < 2 ^ 8 := by omega
  generalize d / 3600 = a at *
  generalize d % 3600 / 60 = b at *
  generalize d % 60 = k at *
  refine ⟨?_, ?_, ?_, ?_⟩ <;> omega

/-- SUBSEC of `toFields` (R87). -/
theorem toFields_subsec (c : Config) (u : Word) : (toFields c u).dt2.toNat = u.toNat % c.freq.toNat := by
  have := Nat.mod_le u.toNat c.freq.toNat
  rw [toFields_dt2, BitVec.toNat_ofNat]
  exact Nat.mod_eq_of_lt (lt_of_le_of_lt this u.isLt)

end Sys2Proof.Machine
end

