-- ==== Sys2Proof/Laws/PerInstr.lean ====
section
/-! SUPPORT. The per-instruction family EncodeLegal: a well-formed instruction's transaction is one that the formats of
R59 can carry, its store data fitting its size (R68). -/

namespace Sys2Proof.Laws.EncodeLegal

def Statement (i : Instr) : Prop := i.wellFormed = true → (encode i).legal = true

theorem now : Statement .now := fun _ => rfl

theorem elapsed : Statement .elapsed := fun _ => rfl

theorem toDatetime : Statement .toDatetime := fun _ => rfl

theorem fromDatetime : Statement .fromDatetime := fun _ => rfl

theorem clockNow : Statement .clockNow := fun _ => rfl

theorem waitUntil : Statement .waitUntil := fun _ => rfl

theorem waitFor : Statement .waitFor := fun _ => rfl

theorem cancel : Statement .cancel := fun _ => rfl

theorem illegalCommand (w : Half) : Statement (.illegalCommand w) := fun _ => rfl

theorem tick (raw : Word) : Statement (.tick raw) := fun _ => rfl

theorem ld64Uptime : Statement .ld64Uptime := fun _ => rfl

theorem ld32Uptime (half : HalfSel) : Statement (.ld32Uptime half) := fun _ => rfl

theorem ld64 (off : Nat) : Statement (.ld64 off) := fun _ => rfl

theorem ld32 (off : Nat) : Statement (.ld32 off) := fun _ => rfl

theorem st64Arg (k : Fin 3) (v : Word) : Statement (.st64Arg k v) :=
  fun _ => decide_eq_true (show FitsSize 8 v from fun h => absurd h (by decide))

theorem st32Arg (k : Fin 3) (half : HalfSel) (v : Half) : Statement (.st32Arg k half v) :=
  fun _ => decide_eq_true (setWidth_fits v)

theorem st32Cmd (w : Half) : Statement (.st32Cmd w) := fun _ => decide_eq_true (setWidth_fits w)

theorem stOther (off n : Nat) (v : Word) : Statement (.stOther off n v) :=
  fun h => decide_eq_true (of_decide_eq_true h).2.2.2

theorem badAccess (kind : AccessKind) (off n : Nat) (v : Word) : Statement (.badAccess kind off n v) := fun h =>
  match kind with
  | .ld => rfl
  | .st => decide_eq_true (of_decide_eq_true h).2.1

end Sys2Proof.Laws.EncodeLegal
end

