-- ==== Sys2Proof/Laws/Slots.lean ====
section
/-! SUPPORT. One slot of the file after `fire()`, `release` and a registration, and how often a handle is woken. -/

namespace Sys2Proof.Machine

theorem State.fire_slot {s : State} {i : Nat} {x : Slot} (h : s.slots[i]? = some x) :
    s.fire.slot i = x.fired s.uptime := by
  apply State.slot_of_getElem?
  rw [State.fire_slots, List.getElem?_map, h]; rfl

theorem State.release_slot {s : State} {i : Nat} (h : i < s.slots.length) :
    (s.release i).slot i = (s.slot i).released := by
  apply State.slot_of_getElem?
  rw [State.release]; simp [h]

/-- Handles of different slots differ (R66). -/
theorem handleOf_ne {g g' : Gen} {i j : Nat} (hi : i < 65536) (hj : j < 65536) (h : i ≠ j) :
    handleOf g i ≠ handleOf g' j := by
  intro he
  have := congrArg handleSlot he
  rw [handleSlot_handleOf _ _ hi, handleSlot_handleOf _ _ hj] at this
  exact h this

/-- `fire()` over the slots from index `k` on emits no handle of an earlier slot. -/
theorem count_wakes_of_lt (u : Word) (l : List Slot) {k j : Nat} (g : Gen) (hl : k + l.length ≤ 65536) (hj : j < k) :
    (wakesFrom u k l).countP (·.handle = handleOf g j) = 0 := by
  rw [List.countP_eq_zero]
  intro e he
  obtain ⟨n, y, hy, -, rfl⟩ := mem_wakesFrom he
  have hn : n < l.length := (List.getElem?_eq_some_iff.1 hy).1
  rw [decide_eq_true_eq]
  exact handleOf_ne (by omega) (by omega) (by omega)

/-- `fire()` emits the handle of a slot once if the slot is due, else not at all (R94). -/
theorem count_wakes (u : Word) (l : List Slot) (k i : Nat) (x : Slot) (hl : k + l.length ≤ 65536)
    (hx : l[i]? = some x) :
    (wakesFrom u k l).countP (·.handle = handleOf x.gen (k + i)) = if x.due u then 1 else 0 := by
  induction l generalizing k i with
  | nil => exact nomatch hx
  | cons a l ih =>
    rw [List.length_cons] at hl
    rw [wakesFrom]
    cases i with
    | zero =>
      obtain rfl := Option.some.inj hx
      have h0 := count_wakes_of_lt u l (k := k + 1) (j := k + 0) a.gen (by omega) (by omega)
      split
      · rw [List.countP_cons, h0, if_pos (by simp)]
      · exact h0
    | succ i =>
      have hi : i < l.length := (List.getElem?_eq_some_iff.1 (show l[i]? = some x from hx)).1
      have h1 := ih (k + 1) i (by omega) hx
      rw [show k + 1 + i = k + (i + 1) by omega] at h1
      split
      · have hne : ¬decide (handleOf a.gen k = handleOf x.gen (k + (i + 1))) = true := by
          rw [decide_eq_true_eq]; exact handleOf_ne (by omega) (by omega) (by omega)
        rw [List.countP_cons, h1, if_neg hne, Nat.add_zero]
      · exact h1

end Sys2Proof.Machine
end

