-- ==== Sys2Proof/Laws/Step.lean ====
section
/-! SUPPORT. What a step can do, and a run one step at a time. -/

namespace Sys2Proof.Machine

/-- A step that goes on: nothing arrives, a transaction is executed, or a legal reset is performed. -/
theorem step_next {s t : State} (h : step s = .next t) : s.cfg.legal = true ∧
    ((s.inputs = [] ∧ t = s) ∨
     (∃ e rest, s.inputs = .transaction e :: rest ∧ exec (decode e) { s with inputs := rest } = .next t) ∨
     (∃ c rest, s.inputs = .reset c :: rest ∧ c.legal = true ∧ t = { State.resetOf c with inputs := rest })) := by
  rw [step, takeNext] at h
  split at h
  · next hl =>
    refine ⟨hl, ?_⟩
    split at h
    · next hi => exact .inl ⟨hi, (Host.Outcome.next.inj h).symm⟩
    · next e rest hi =>
      cases e with
      | transaction e => exact .inr (.inl ⟨e, rest, hi, h⟩)
      | reset c =>
        rw [takeEvent, resetStep] at h
        split at h
        · next hc => exact .inr (.inr ⟨c, rest, hi, hc, (Host.Outcome.next.inj h).symm⟩)
        · exact nomatch h
  · exact nomatch h

theorem run_succ (M : Host.Core) (k : Nat) (s : M.State) : M.run (k + 1) s = match M.step s with
  | .next t => M.run k t
  | .fault r => .fault r
  | .refused r => .refused r := rfl

theorem run_succ_of_step {k : Nat} {s t : State} (h : step s = .next t) : core.run (k + 1) s = core.run k t := by
  have e := run_succ core k s
  rw [show core.step s = .next t from h] at e
  exact e

theorem step_of_run_succ {k : Nat} {s u : State} (h : core.run (k + 1) s = .next u) :
    ∃ t, step s = .next t ∧ core.run k t = .next u := by
  have e := run_succ core k s
  rw [e] at h
  revert h
  cases hs : core.step s with
  | next t => exact fun h => ⟨t, hs, h⟩
  | fault r => exact fun h => nomatch h
  | refused r => exact fun h => nomatch h

end Sys2Proof.Machine
end

