-- ==== Sys2Proof/Laws/Window.lean ====
section
/-! SUPPORT. The register window through the model's view of one byte, and a read access whatever row it decodes to. -/

namespace Sys2Proof.Machine

/-- A read access is `MemRead` at its offset and size, whatever row of the table it decodes to (R41). -/
theorem exec_decode_load (off n : Nat) (s : State) : exec (decode (.load off n)) s = busLoad off n s := by
  show exec (decodeLoad off n) s = _
  unfold decodeLoad
  by_cases h : AlignedAccess off n
  · rw [if_neg (not_not.2 h)]
    split_ifs with h8 h0 h0 h4
    · subst_vars; rfl
    · subst_vars; rfl
    all_goals (have := h.1.resolve_right h8; subst_vars; rfl)
  · rw [if_pos h, busLoad, State.memRead, if_pos (.inl h)]; rfl

theorem windowReg_setArg (s : State) (k : Fin 3) (v : Word) (j : Nat) :
    (s.setArg k v).windowReg j = if j = 4 + k.val then some v else s.windowReg j := by
  by_cases h : j < 16
  · fin_cases k <;> interval_cases j <;> rfl
  · have out : ∀ t : State, t.windowReg j = none := by
      intro t; unfold State.windowReg; split <;> first | rfl | omega
    rw [out, out, if_neg (by omega)]

theorem windowReg_arg (s : State) (k : Fin 3) : s.windowReg (4 + k.val) = some (s.arg k) := by
  fin_cases k <;> rfl

/-- A write of ARGk shows its bytes in its 8-byte slot of the window and nowhere else. -/
theorem windowByte_setArg (s : State) (k : Fin 3) (v : Word) (a : Nat) :
    (s.setArg k v).windowByte a = if a / 8 = 4 + k.val then some (byteOf v (a % 8)) else s.windowByte a := by
  rw [State.windowByte, windowReg_setArg]; split <;> rfl

theorem byteOf_replaceHalf_lo (old : Word) (v : Half) {i : Nat} (h : i < 8) :
    byteOf (replaceHalf .lo old v) i = if i < 4 then v.extractLsb' (8 * i) 8 else byteOf old i := by
  apply BitVec.eq_of_toNat_eq
  have := v.isLt
  split <;>
    (simp only [byteOf, BitVec.extractLsb'_toNat, replaceHalf_lo_toNat, Nat.shiftRight_eq_div_pow]
     interval_cases i <;> omega)

theorem byteOf_replaceHalf_hi (old : Word) (v : Half) {i : Nat} (h : i < 8) :
    byteOf (replaceHalf .hi old v) i = if i < 4 then byteOf old i else v.extractLsb' (8 * (i - 4)) 8 := by
  apply BitVec.eq_of_toNat_eq
  have := v.isLt
  split <;>
    (simp only [byteOf, BitVec.extractLsb'_toNat, replaceHalf_hi_toNat, Nat.shiftRight_eq_div_pow]
     interval_cases i <;> omega)

end Sys2Proof.Machine
end

