-- ==== Sys2Proof/Tests/Slice0.lean ====
section
/-! SUPPORT. Small tests: terms that are not well formed, words and accesses written out from the encodings, the
vectors of 95_test_vectors.md (named in each test), and a witness for the hypotheses of each statement. -/

namespace Sys2Proof.Tests

open Sys2Proof Sys2Proof.Machine

/-! ### Helpers -/

/-- `exec` goes on to a state with property `p`. -/
def goes (i : Instr) (s : State) (p : State → Bool) : Bool :=
  match exec i s with
  | .next t => p t
  | .fault _ => false
  | .refused _ => false

/-- The transaction's instruction ends in BusError at `off`. -/
def busError (t : Transaction) (off : Nat) : Bool :=
  match exec (decode t) State.reset with
  | .next _ => false
  | .fault (.busError o) => o == off
  | .refused _ => false

/-- A step goes on to a state with property `p`. -/
def steps (s : State) (p : State → Bool) : Bool :=
  match step s with
  | .next t => p t
  | .fault _ => false
  | .refused _ => false

/-- The default configuration's machine at an uptime. -/
def uptimeAt (u : Word) : State := { State.reset with uptime := u }

/-- The same with ARG0 and ARG1. -/
def withArgs (s : State) (a0 a1 : Word) : State := { s with arg0 := a0, arg1 := a1 }

/-- A pending slot. -/
def pend (deadline waker : Word) (gen : Gen) : Slot := ⟨.pending, deadline, waker, gen⟩

/-- N_SLOTS = n with these slots. -/
def withSlots (s : State) (l : List Slot) : State :=
  { s with cfg := { s.cfg with nSlots := l.length }, slots := l }

/-- DELTA mode, W = 16. -/
def deltaCfg : Config := { Config.default with incMode := .delta, rawAtReset := 0x1234#64 }

/-- UPTIME = 10 with one registration at 12, GEN 1, whose handle is in ARG0 (program L3.2 in small). -/
def waiting : State := withArgs (withSlots (uptimeAt 10#64) [pend 12#64 0xAA#64 1#48]) 0x10000#64 0#64

/-! ### Ill-formed terms, one for each check of `wellFormed` -/

theorem test_ill_illegalCommand : (Instr.illegalCommand 1#32).wellFormed = false := by decide
theorem test_ill_ld64_zero : (Instr.ld64 0).wellFormed = false := by decide
theorem test_ill_ld64_misaligned : (Instr.ld64 0x14).wellFormed = false := by decide
theorem test_ill_ld32_zero : (Instr.ld32 0).wellFormed = false := by decide
theorem test_ill_ld32_four : (Instr.ld32 4).wellFormed = false := by decide
theorem test_ill_ld32_misaligned : (Instr.ld32 0x12).wellFormed = false := by decide
theorem test_ill_stOther_misaligned : (Instr.stOther 0x44 8 0#64).wellFormed = false := by decide
theorem test_ill_stOther_cmd : (Instr.stOther 8 4 0#64).wellFormed = false := by decide
theorem test_ill_stOther_arg : (Instr.stOther 0x30 8 0#64).wellFormed = false := by decide
theorem test_ill_stOther_data : (Instr.stOther 0x40 4 0x100000000#64).wellFormed = false := by decide
theorem test_ill_badAccess_good : (Instr.badAccess .st 0x40 8 0#64).wellFormed = false := by decide
theorem test_ill_badAccess_data : (Instr.badAccess .st 0x41 4 0x100000000#64).wellFormed = false := by decide
theorem test_ill_badAccess_load : (Instr.badAccess .ld 0x41 4 1#64).wellFormed = false := by decide
theorem test_ill_transaction : (Transaction.store 0x20 4 0x100000000#64).legal = false := by decide

/-! ### Decoding: the words of R61 and R62, the events of R67, the accesses of R68, written out -/

theorem test_decode_now : decode (.cmdWord 0b00000000000000000000000000000001#32) = .now := by decide
theorem test_decode_elapsed : decode (.cmdWord 0b00000000000000000000000000000010#32) = .elapsed := by decide
theorem test_decode_toDatetime : decode (.cmdWord 0b00000000000000000000000000000011#32) = .toDatetime := by decide
theorem test_decode_fromDatetime : decode (.cmdWord 0b00000000000000000000000000000100#32) = .fromDatetime := by decide
theorem test_decode_clockNow : decode (.cmdWord 0b00000000000000000000000000000101#32) = .clockNow := by decide
theorem test_decode_waitUntil : decode (.cmdWord 0b00000000000000000000000000000110#32) = .waitUntil := by decide
theorem test_decode_waitFor : decode (.cmdWord 0b00000000000000000000000000000111#32) = .waitFor := by decide
theorem test_decode_cancel : decode (.cmdWord 0b00000000000000000000000000001000#32) = .cancel := by decide
theorem test_decode_illegal_zero : decode (.cmdWord 0#32) = .illegalCommand 0#32 := by decide
theorem test_decode_illegal_reserved : decode (.cmdWord 0x80000006#32) = .illegalCommand 0x80000006#32 := by decide
theorem test_decode_tick : decode (.tickEvent 0xFFF0#64) = .tick 0xFFF0#64 := by decide
theorem test_decode_ld64Uptime : decode (.load 0x00 8) = .ld64Uptime := by decide
theorem test_decode_ld32Uptime_lo : decode (.load 0x00 4) = .ld32Uptime .lo := by decide
theorem test_decode_ld32Uptime_hi : decode (.load 0x04 4) = .ld32Uptime .hi := by decide
theorem test_decode_ld64 : decode (.load 0x78 8) = .ld64 0x78 := by decide
theorem test_decode_ld32 : decode (.load 0x7C 4) = .ld32 0x7C := by decide
theorem test_decode_st64Arg : decode (.store 0x30 8 0x237#64) = .st64Arg 2 0x237#64 := by decide
theorem test_decode_st32Arg : decode (.store 0x24 4 0xDEADBEEF#64) = .st32Arg 0 .hi 0xDEADBEEF#32 := by decide
theorem test_decode_st32Cmd : decode (.store 0x08 4 8#64) = .st32Cmd 8#32 := by decide
theorem test_decode_stOther : decode (.store 0x08 8 8#64) = .stOther 0x08 8 8#64 := by decide
theorem test_decode_badAccess_size : decode (.load 0x00 2) = .badAccess .ld 0x00 2 0#64 := by decide
theorem test_decode_badAccess_misaligned : decode (.store 0x21 4 5#64) = .badAccess .st 0x21 4 5#64 := by decide
theorem test_table_word : decodeTableWord 32 6 = some .waitUntil := by decide

/-! ### Vectors of 95_test_vectors.md -/

/-- TK4: the raw counter wrapped. -/
theorem test_tick_delta_wrap :
    goes (.tick 0x10#64) { State.resetOf deltaCfg with lastRaw := 0xFFF0#64 }
      (fun t => t.uptime == 32#64 && t.lastRaw == 0x10#64) = true := by decide

/-- FI1: P = 5; the WAKE events come in slot order, not in deadline order. -/
theorem test_tick_fires_in_slot_order :
    goes (.tick 0#64)
      { withSlots State.reset [pend 5#64 0xC#64 1#48, pend 3#64 0xA#64 1#48, pend 4#64 0xB#64 1#48] with
        cfg := { Config.default with period := 5#64, nSlots := 3 } }
      (fun t => t.uptime == 5#64 &&
        t.wakeLog == [⟨0xC#64, 0x10000#64⟩, ⟨0xA#64, 0x10001#64⟩, ⟨0xB#64, 0x10002#64⟩] &&
        t.slots.all (·.state == .free)) = true := by decide

/-- NW1. -/
theorem test_now : goes .now (uptimeAt 7#64) (fun t => t.res0 == 7#64 && t.statusWord == 0x0100#64) = true := by decide

/-- EL1. -/
theorem test_elapsed :
    goes .elapsed (withArgs (uptimeAt 1000#64) 400#64 0#64)
      (fun t => t.res0 == 600#64 && t.statusWord == 0x0200#64) = true := by decide

/-- EL3: a future `since`. -/
theorem test_elapsed_future :
    goes .elapsed (withArgs (uptimeAt 1000#64) 1001#64 0#64)
      (fun t => t.res0 == 0#64 && t.statusWord == 0x0200#64) = true := by decide

/-- TD1. -/
theorem test_toDatetime :
    goes .toDatetime (withArgs State.reset 1500000#64 0#64)
      (fun t => t.res0 == 0x01010000000007B2#64 && t.res1 == 0x1900#64 && t.res2 == 0#64 &&
        t.statusWord == 0x0300#64) = true := by decide

/-- TD20: the largest uptime at F = 1000. -/
theorem test_toDatetime_max :
    goes .toDatetime (withArgs State.reset 18446744073709551615#64 0#64)
      (fun t => t.res0 == 0x0304000022D79DF3#64 && t.res1 == 0x33190E#64 && t.res2 == 0x267#64) = true := by decide

/-- FD5: 2000-02-29. -/
theorem test_fromDatetime :
    goes .fromDatetime (withArgs State.reset 0x1D020000000007D0#64 0#64)
      (fun t => t.res0 == 951782400000#64 && t.statusWord == 0x0400#64) = true := by decide

/-- FD6: 2100-02-29; RES0 stays. -/
theorem test_fromDatetime_out_of_range :
    goes .fromDatetime (withArgs { State.reset with res0 := 9#64 } 0x1D02000000000834#64 0#64)
      (fun t => t.res0 == 9#64 && t.statusWord == 0x0482#64) = true := by decide

/-- CN2: EPOCH_OFFSET = 1,700,000,000. -/
theorem test_clockNow :
    goes .clockNow { uptimeAt 1234567#64 with cfg := { Config.default with epoch := 1700000000#64 } }
      (fun t => t.res0 == 0x0E0B0000000007E7#64 && t.res1 == 0x362116#64 && t.res2 == 0x237#64 &&
        t.res3 == 0x12D687#64 && t.statusWord == 0x0500#64) = true := by decide

/-- WU3. -/
theorem test_waitUntil :
    goes .waitUntil (withArgs (uptimeAt 100#64) 600#64 0xAA#64)
      (fun t => t.res0 == 0x10000#64 && t.res1 == 600#64 && t.statusWord == 0x0600#64 &&
        t.slot 0 == pend 600#64 0xAA#64 1#48) = true := by decide

/-- WU8: GEN wraps from 2^48 - 1 to 1. -/
theorem test_waitUntil_gen_wraps :
    goes .waitUntil (withArgs (withSlots State.reset [⟨.free, 0#64, 0#64, 0xFFFFFFFFFFFF#48⟩]) 1#64 0#64)
      (fun t => t.res0 == 0x10000#64 && (t.slot 0).gen == 1#48 && t.statusWord == 0x0600#64) = true := by decide

/-- WF3: a sum of exactly MAX64 is legal. -/
theorem test_waitFor :
    goes .waitFor (withArgs (uptimeAt 18446744073709551606#64) 9#64 0#64)
      (fun t => t.res0 == 0x10000#64 && t.res1 == 18446744073709551615#64 && t.statusWord == 0x0700#64) = true := by
  decide

/-- WF4. -/
theorem test_waitFor_invalid :
    goes .waitFor (withArgs (uptimeAt 18446744073709551606#64) 10#64 0#64)
      (fun t => t.res0 == 0#64 && t.statusWord == 0x0781#64) = true := by decide

/-- CA1. -/
theorem test_cancel :
    goes .cancel (withArgs (withSlots (uptimeAt 100#64) [pend 600#64 0xAA#64 1#48]) 0x10000#64 0#64)
      (fun t => t.res0 == 1#64 && t.statusWord == 0x0800#64 && (t.slot 0).state == .free && t.wakeLog == []) = true := by
  decide

/-- CA4: a wrong GEN. -/
theorem test_cancel_stale :
    goes .cancel (withArgs (withSlots (uptimeAt 100#64) [pend 600#64 0xAA#64 1#48]) 0x20000#64 0#64)
      (fun t => t.res0 == 0#64 && t.statusWord == 0x0800#64 && (t.slot 0).state == .pending) = true := by decide

/-- IL4: opcode 0x01 with reserved bit 8 set, written to CMD. -/
theorem test_illegalCommand :
    goes (decode (.store 0x08 4 0x101#64)) State.reset (fun t => t.statusWord == 0x0180#64) = true := by decide

/-- RS3, through the bus: ST32 @0x08 = 1. -/
theorem test_st32Cmd :
    goes (.st32Cmd 1#32) State.reset (fun t => t.res0 == 0#64 && t.statusWord == 0x0100#64) = true := by decide

/-- UR1. -/
theorem test_ld64Uptime :
    goes .ld64Uptime (uptimeAt 0x180000002#64) (fun t => t.readLog == [.word 0x180000002#64]) = true := by decide

/-- UR2. -/
theorem test_ld32Uptime_lo :
    goes (.ld32Uptime .lo) (uptimeAt 0x180000002#64) (fun t => t.readLog == [.half 0x80000002#32]) = true := by decide

/-- UR3. -/
theorem test_ld32Uptime_hi :
    goes (.ld32Uptime .hi) (uptimeAt 0x180000002#64) (fun t => t.readLog == [.half 1#32]) = true := by decide

/-- CF2: INFO in DELTA mode, W = 16, N_SLOTS = 1. -/
theorem test_ld64_info :
    goes (.ld64 0x78) (State.resetOf { deltaCfg with nSlots := 1 })
      (fun t => t.readLog == [.word 0x10090#64]) = true := by decide

/-- Program L3.6, step 7: the low half of STATUS. -/
theorem test_ld32_status :
    goes (.ld32 0x10) { State.reset with code := 0x80#8, lastOp := 0xFF#8 }
      (fun t => t.readLog == [.half 0xFF80#32]) = true := by decide

/-- Program L3.2, step 3: ST64 @0x20. -/
theorem test_st64Arg : goes (.st64Arg 0 0x258#64) State.reset (fun t => t.arg0 == 600#64) = true := by decide

/-- HW1. -/
theorem test_st32Arg_hi :
    goes (.st32Arg 0 .hi 0xDEADBEEF#32) (withArgs State.reset 5#64 0#64)
      (fun t => t.arg0 == 0xDEADBEEF00000005#64 && t.statusWord == 0#64) = true := by decide

/-- HW2. -/
theorem test_st32Arg_lo :
    goes (.st32Arg 0 .lo 7#32) (withArgs State.reset 0xDEADBEEF00000005#64 0#64)
      (fun t => t.arg0 == 0xDEADBEEF00000007#64) = true := by decide

/-- BE6 and BE7. -/
theorem test_stOther :
    (busError (.store 0x00 8 9#64) 0x00 && busError (.store 0x08 8 1#64) 0x08) = true := by decide

/-- BE1 and BE2. -/
theorem test_badAccess : (busError (.load 0x02 4) 0x02 && busError (.load 0x00 2) 0x00) = true := by decide

/-- BE3, BE5 and BE11. -/
theorem test_ld_bus_errors :
    (busError (.load 0x08 8) 0x08 && busError (.load 0x0C 4) 0x0C && busError (.load 0x80 8) 0x80) = true := by decide

/-- RS1, through a step. -/
theorem test_reset :
    steps { waiting with inputs := [.reset Config.default] }
      (fun t => decide (t = State.reset)) = true := by decide

/-- A table word run as the first transaction after reset. -/
theorem test_first_transaction :
    steps (State.reset.withFetchWord 32 5) (fun t => t.statusWord == 0x0500#64) = true := by decide

/-! ### Witnesses: states and operands that meet the hypotheses of each statement, clause by clause -/

theorem test_witness_DecodeEncodeAgree :
    (Instr.illegalCommand 9#32).wellFormed = true ∧ (Instr.ld64 0x78).wellFormed = true ∧
    (Instr.ld32 8).wellFormed = true ∧ (Instr.stOther 0x38 4 0xFFFFFFFF#64).wellFormed = true ∧
    (Instr.badAccess .st 0x22 4 1#64).wellFormed = true := by decide

theorem test_witness_EncodeDecodeAgree :
    (Transaction.store 0x34 4 0xFFFFFFFF#64).legal = true ∧ (Transaction.store 0x38 8 0x100000000#64).legal = true := by
  decide

theorem test_witness_StepRunsDecodedTransaction :
    let s := { State.reset with inputs := [.transaction (.load 0 8), .transaction (.tickEvent 1#64)] }
    s.cfg.legal = true ∧ s.inputs = .transaction (.load 0 8) :: [.transaction (.tickEvent 1#64)] := by decide

theorem test_witness_StepIdlesOrRefuses :
    (State.reset.cfg.legal = true ∧ State.reset.inputs = []) ∧
    (State.resetOf { Config.default with period := 0#64 }).cfg.legal = false ∧
    (waiting.cfg.legal = true ∧ { deltaCfg with base := 4 }.legal = false ∧
      { waiting with inputs := [.reset { deltaCfg with base := 4 }] }.inputs =
        .reset { deltaCfg with base := 4 } :: []) := by decide

theorem test_witness_ResetSetsEveryField :
    waiting.cfg.legal = true ∧ deltaCfg.legal = true ∧
    { waiting with inputs := [.reset deltaCfg] }.inputs = .reset deltaCfg :: [] := by decide

/-- The alternatives of `ResetRefusesIllegalConfiguration`. -/
abbrev OutsideR6 (c : Config) : Prop :=
  c.freq = 0#64 ∨ c.period = 0#64 ∨ c.rawWidth = 0 ∨ 64 < c.rawWidth ∨ c.nSlots = 0 ∨ 65536 < c.nSlots ∨
    c.incMode = .delta ∧ 2 ^ c.rawWidth ≤ c.rawAtReset.toNat

/-- Each alternative at its boundary. -/
theorem test_witness_ResetRefusesIllegalConfiguration :
    waiting.cfg.legal = true ∧
    (∀ c ∈ [{ deltaCfg with freq := 0#64 }, { deltaCfg with period := 0#64 }, { deltaCfg with rawWidth := 0 },
      { deltaCfg with rawWidth := 65 }, { deltaCfg with nSlots := 0 }, { deltaCfg with nSlots := 65537 },
      { deltaCfg with rawAtReset := 0x10000#64 }], OutsideR6 c) ∧
    ∀ c ∈ [{ deltaCfg with rawAtReset := 0xFFFF#64, nSlots := 65536 }, { deltaCfg with rawWidth := 64 }],
      ¬OutsideR6 c := by decide

/-- EL2 and EL3: `since` at UPTIME and one above. -/
theorem test_witness_ElapsedSaturatesAtZero :
    (withArgs (uptimeAt 1000#64) 1000#64 0#64).arg0.toNat ≤ (uptimeAt 1000#64).uptime.toNat ∧
    (uptimeAt 1000#64).uptime.toNat < (withArgs (uptimeAt 1000#64) 1001#64 0#64).arg0.toNat := by decide

theorem test_witness_PeriodTickAddsExactlyP : State.reset.cfg.incMode = .period := by decide

/-- The largest raw value of W = 16. -/
theorem test_witness_DeltaTickAddsModularDelta :
    let s := State.resetOf deltaCfg
    s.cfg.incMode = .delta ∧ s.cfg.rawWidth ≤ 64 ∧ (0xFFFF#64).toNat < 2 ^ s.cfg.rawWidth := by decide

/-- A sum one above MAX64 (TK10 with P = 5), and a counter that is MAX64 already. -/
theorem test_witness_UptimeSaturates :
    (let s := { uptimeAt 18446744073709551611#64 with cfg := { Config.default with period := 5#64 } }
     s.uptime.toNat + s.tickIncrement 0#64 = max64 + 1) ∧
    (uptimeAt 18446744073709551615#64).uptime.toNat = max64 := by decide

theorem test_witness_PeriodTickCountLaw :
    let s := { waiting with inputs := tickEvents [0#64, 7#64, 0#64] }
    s.cfg.legal = true ∧ s.cfg.incMode = .period ∧ s.inputs = tickEvents [0#64, 7#64, 0#64] := by decide

theorem test_witness_DeltaTickCountLaw :
    let s := { State.resetOf deltaCfg with inputs := tickEvents [0x1240#64, 0#64] }
    s.cfg.legal = true ∧ s.cfg.incMode = .delta ∧ s.inputs = tickEvents [0x1240#64, 0#64] ∧
    ∀ raw ∈ [0x1240#64, 0#64], raw.toNat < 2 ^ s.cfg.rawWidth :=
  ⟨by decide, by decide, rfl, by intro raw h; fin_cases h <;> decide⟩

/-- Program L3.1: a TICK carries into the high half between the low read and the second high read. -/
theorem test_witness_SplitReadProtocol :
    let s := { uptimeAt 0xFFFFFFFF#64 with inputs := [.transaction (.load 4 4), .transaction (.load 0 4),
      .transaction (.tickEvent 0#64), .transaction (.load 4 4)] }
    s.NoReset ∧ ∃ t u v, core.run 1 s = .next t ∧ core.run 2 t = .next u ∧ core.run 1 u = .next v ∧
      s.memRead 0x04 4 = some (.half 0#32) ∧ t.memRead 0x00 4 = some (.half 0xFFFFFFFF#32) ∧
      u.memRead 0x04 4 = some (.half 1#32) ∧ v.memRead 0x00 4 = some (.half 0#32) := by
  refine ⟨fun c h => ?_, _, _, _, rfl, rfl, rfl, rfl, rfl, rfl, rfl⟩
  simp at h

/-- The high reads agree: nothing arrives between the reads. -/
theorem test_witness_SplitReadProtocol_agree :
    let s := uptimeAt 0x180000002#64
    s.NoReset ∧ core.run 1 s = .next s ∧ s.memRead 0x04 4 = some (.half 1#32) ∧
      s.memRead 0x00 4 = some (.half 0x80000002#32) := ⟨fun _ h => (nomatch h), rfl, rfl, rfl⟩

theorem test_witness_DaysBeforeYearIsSumOfYears : 1970 ≤ 1970 ∧ 1970 ≤ 1972 := by decide

theorem test_witness_ToDatetimeGivesTheDate : State.reset.cfg.freq ≠ 0#64 := by decide

theorem test_witness_ClockNowGivesDateAndSample : waiting.cfg.freq ≠ 0#64 := by decide

/-- F = 10^9. FD19, the last representable instant, and FD20, one tick past it; the year 1970 at an epoch in 2023. -/
theorem test_witness_FromDatetimeGivesTicks :
    let c := { Config.default with freq := 1000000000#64 }
    let d (sub : Word) : DateWords := ⟨0x15070000000009FA#64, 0x212217#64, sub⟩
    let e : DateWords := ⟨0x01010000000007B2#64, 0#64, 0#64⟩
    (ValidDate c (d 709551615#64) ∧ c.epoch.toNat ≤ secondsOf (d 709551615#64) ∧
      (secondsOf (d 709551615#64) - c.epoch.toNat) * c.freq.toNat + 709551615 = max64) ∧
    (ValidDate c (d 709551616#64) ∧ (secondsOf (d 709551616#64) - c.epoch.toNat) * c.freq.toNat + 709551616 = max64 + 1) ∧
    ValidDate c e ∧ secondsOf e < 1700000000 := by decide

/-- FD17, FD23 and FD20: each alternative at its boundary. -/
theorem test_witness_FromDatetimeOutOfRange :
    ¬ValidDate Config.default ⟨0x01010000000007B2#64, 0x01000000#64, 0#64⟩ ∧
    secondsOf ⟨0x0E0B0000000007E7#64, 0x130D16#64, 999#64⟩ + 1 = 1700000000 ∧
    max64 < (secondsOf ⟨0x15070000000009FA#64, 0x212217#64, 709551616#64⟩ - 0) * 1000000000 + 709551616 := by decide

/-- TO_DATETIME, CLOCK_NOW and a word other than FROM_DATETIME's complete. -/
theorem test_witness_FromDatetimeOutOfRange_others :
    (∃ t, exec .toDatetime State.reset = .next t) ∧ (∃ t, exec .clockNow State.reset = .next t) ∧
    3#32 ≠ 0x00000004#32 ∧ ∃ t, exec (decode (.cmdWord 3#32)) State.reset = .next t := ⟨⟨_, rfl⟩, ⟨_, rfl⟩, by decide, _, rfl⟩

theorem test_witness_TicksSurviveDateRoundTrip : Config.default.freq ≠ 0#64 := by decide

/-- FD3. -/
theorem test_witness_DatesSurviveTickRoundTrip :
    fromFields Config.default ⟨0x01010000000007B2#64, 0#64, 999#64⟩ = some 999#64 := by decide

theorem test_witness_ProducedYearsAreBounded : { Config.default with freq := 1#64 }.freq ≠ 0#64 := by decide

/-- WU1 (target at UPTIME), WU5 (one above it, every slot pending) and WU4 (the second slot is the lowest free one). -/
theorem test_witness_WaitUntilOutcomes :
    (withArgs waiting 10#64 0#64).arg0.toNat ≤ waiting.uptime.toNat ∧
    (waiting.uptime.toNat < (withArgs waiting 11#64 0#64).arg0.toNat ∧ ∀ x ∈ waiting.slots, x.state = .pending) ∧
    (let s := withArgs (withSlots (uptimeAt 100#64) [pend 600#64 0xAA#64 1#48, Slot.empty]) 101#64 0xBB#64
     s.uptime.toNat < s.arg0.toNat ∧ s.slots[1]? = some Slot.empty ∧ Slot.empty.state = .free ∧
     ∀ j, j < 1 → ∀ y ∈ s.slots[j]?, y.state = .pending) := by decide

/-- WF3 and WF4: the sum at MAX64 and one above. -/
theorem test_witness_WaitForIsWaitUntilAtSum :
    (uptimeAt 18446744073709551606#64).uptime.toNat + (9#64).toNat ≤ 2 ^ 64 - 1 ∧
    2 ^ 64 - 1 < (uptimeAt 18446744073709551606#64).uptime.toNat + (10#64).toNat := by decide

/-- WF4, NO_SLOT of either command, and a state where neither arises. -/
theorem test_witness_WaitErrorsExactlyOnOverflowAndFullFile :
    (∃ t, exec .waitFor (withArgs (uptimeAt 18446744073709551606#64) 10#64 0#64) = .next t ∧ t.code = 0x81#8) ∧
    (∃ t, exec .waitFor waiting = .next t ∧ t.code = 0x83#8) ∧
    (∃ t, exec .waitUntil waiting = .next t ∧ t.code = 0x83#8) ∧
    (∃ t, exec .waitUntil State.reset = .next t ∧ t.code = 0x01#8) ∧
    8#32 ≠ 0x00000006#32 ∧ 8#32 ≠ 0x00000007#32 ∧ ∃ t, exec (decode (.cmdWord 8#32)) waiting = .next t :=
  ⟨⟨_, rfl, by decide⟩, ⟨_, rfl, by decide⟩, ⟨_, rfl, by decide⟩, ⟨_, rfl, by decide⟩, by decide, by decide, _, rfl⟩

/-- CA1 and CA4. -/
theorem test_witness_CancelReleasesOnExactMatch :
    (waiting.arg0.toNat % 2 ^ 16 < waiting.cfg.nSlots ∧
      waiting.slots[waiting.arg0.toNat % 2 ^ 16]? = some (pend 12#64 0xAA#64 1#48) ∧
      (pend 12#64 0xAA#64 1#48).state = .pending ∧
      (pend 12#64 0xAA#64 1#48).gen.toNat = waiting.arg0.toNat / 2 ^ 16) ∧
    ¬∃ x ∈ waiting.slots[0x20000 % 2 ^ 16]?, 0x20000 % 2 ^ 16 < waiting.cfg.nSlots ∧ x.state = .pending ∧
      x.gen.toNat = 0x20000 / 2 ^ 16 := by decide

/-- The TICK that reaches the deadline 12 exactly, and one that stays below it. -/
theorem test_witness_RegistrationWakesExactlyOnce :
    waiting.Inv ∧ { waiting with uptime := 11#64 }.Inv ∧ waiting.slots[0]? = some (pend 12#64 0xAA#64 1#48) ∧
    (∃ t, exec (.tick 0#64) { waiting with uptime := 11#64 } = .next t ∧
      (pend 12#64 0xAA#64 1#48).deadline.toNat ≤ t.uptime.toNat) ∧
    ∃ t, exec (.tick 0#64) waiting = .next t ∧ t.uptime.toNat < (pend 12#64 0xAA#64 1#48).deadline.toNat :=
  ⟨by decide, by decide, rfl, ⟨_, rfl, by decide⟩, ⟨_, rfl, by decide⟩⟩

theorem test_witness_TickBelowMinimumDeadlineFiresNothing :
    ∃ t, exec (.tick 0#64) waiting = .next t ∧
      ∀ x ∈ waiting.slots, x.state = .pending → t.uptime.toNat < x.deadline.toNat := ⟨_, rfl, by decide⟩

theorem test_witness_CancelTakesBackRegistration :
    let s := withArgs (uptimeAt 100#64) 600#64 0xAA#64
    s.Inv ∧ (∃ t, exec .waitUntil s = .next t ∧ t.code = 0x00#8) ∧ ∃ t, exec .waitFor s = .next t ∧ t.code = 0x00#8 :=
  ⟨by decide, ⟨_, rfl, by decide⟩, _, rfl, by decide⟩

/-- A CANCEL that releases and one that does not. -/
theorem test_witness_CancelIsIdempotent :
    (∃ t, exec .cancel waiting = .next t ∧ t.res0 = 1#64) ∧
    ∃ t, exec .cancel State.reset = .next t ∧ t.res0 = 0#64 := ⟨⟨_, rfl, by decide⟩, _, rfl, by decide⟩

theorem test_witness_CancelRacesFiringTick :
    let s := { waiting with uptime := 11#64 }
    s.Inv ∧ s.slots[0]? = some (pend 12#64 0xAA#64 1#48) ∧ s.arg0 = handleOf 1#48 0 ∧
    (12#64).toNat ≤ s.uptime.toNat + s.tickIncrement 0#64 := by decide

theorem test_witness_InfoShowsConfiguration :
    State.reset.cfg.legal = true ∧ { deltaCfg with nSlots := 65536, rawWidth := 64 }.legal = true := by decide

theorem test_witness_HalfReadsMakeTheWhole : 0x10 ∈ readableOffsets ∧ 0x78 ∈ readableOffsets := by decide

theorem test_witness_WindowBytesAreLittleEndian :
    (uptimeAt 0x180000002#64).memRead 0x00 8 = some (.word 0x180000002#64) ∧
    (uptimeAt 0x180000002#64).memRead 0x04 4 = some (.half 1#32) ∧
    (uptimeAt 0x180000002#64).windowByte (0x00 + 3) = some 0x80#8 ∧
    (uptimeAt 0x180000002#64).windowByte (0x04 + 0) = some 1#8 := by decide

/-- The last readable offset; CMD, a reserved slot, the end of the window, a misaligned and a 2-byte access. -/
theorem test_witness_ReadsCompleteExactlyWhereReadable :
    (AlignedAccess 0x7C 4 ∧ Readable 0x7C) ∧ (AlignedAccess 0x04 4 ∧ Readable 0x04) ∧ ¬Readable 0x08 ∧
    (¬Readable 0x1C ∧ ¬Readable 0x3C ∧ ¬Readable 0x80) ∧ ¬AlignedAccess 0x12 4 ∧ ¬AlignedAccess 0x00 2 :=
  ⟨by decide, by decide, by decide, by decide, by decide, by decide⟩

/-- The first and the last byte written, and the bytes beside them. -/
theorem test_witness_ArgWritesAndFrame_whole :
    (argOffset 1 ≤ 0x28 ∧ 0x28 < argOffset 1 + 8) ∧ (argOffset 1 ≤ 0x2F ∧ 0x2F < argOffset 1 + 8) ∧
    ¬(argOffset 1 ≤ 0x27 ∧ 0x27 < argOffset 1 + 8) ∧ ¬(argOffset 1 ≤ 0x30 ∧ 0x30 < argOffset 1 + 8) := by decide

theorem test_witness_ArgWritesAndFrame_half :
    (argOffset 0 + halfOffset .hi ≤ 0x24 ∧ 0x27 < argOffset 0 + halfOffset .hi + 4) ∧
    ¬(argOffset 0 + halfOffset .hi ≤ 0x23 ∧ 0x23 < argOffset 0 + halfOffset .hi + 4) ∧
    ¬(argOffset 0 + halfOffset .hi ≤ 0x28 ∧ 0x28 < argOffset 0 + halfOffset .hi + 4) := by decide

/-- The illegal words next to the eight commands. -/
theorem test_witness_CmdWriteIssuesCommand : (0#32).toNat = 0 ∧ 8 < (9#32).toNat := by decide

/-- A 64-bit write to CMD, and the offsets on both sides of the ARG registers. -/
theorem test_witness_OtherStoresAreBusErrors :
    (¬(0x08 = 0x08 ∧ 8 = 4) ∧ ¬(0x20 ≤ 0x08 ∧ 0x08 < 0x38)) ∧ ¬(0x20 ≤ 0x1C ∧ 0x1C < 0x38) ∧
    ¬(0x20 ≤ 0x38 ∧ 0x38 < 0x38) := by decide

/-- Each cause at the ends of its range. -/
theorem test_witness_BusErrorCauses :
    (2 ≠ 4 ∧ 2 ≠ 8) ∧ 0x21 % 4 ≠ 0 ∧ 0x24 % 8 ≠ 0 ∧ 0x80 ≤ 0x80 ∧ (0x18 ≤ 0x18 ∧ 0x1C < 0x20) ∧
    (0x38 ≤ 0x38 ∧ 0x3C < 0x40) ∧ (0x08 ≤ 0x08 ∧ 0x0C < 0x10) ∧ 0x04 < 0x08 ∧ (0x10 ≤ 0x10 ∧ 0x14 < 0x18) ∧
    (0x40 ≤ 0x40 ∧ 0x7C < 0x80) := by decide

theorem test_witness_BusAlignmentIsOffsetAlignment :
    let c := { Config.default with base := 0x1008 }
    c.legal = true ∧ c.offsetOf 0x1008 = some 0 ∧ c.offsetOf 0x102C = some 0x24 := by decide

/-- One instruction and state for each clause. -/
theorem test_witness_OutcomesOfEachCommand :
    (∃ t, exec .now waiting = .next t) ∧ (∃ t, exec .fromDatetime waiting = .next t) ∧
    (∃ t, exec .waitUntil waiting = .next t) ∧ ∃ t, exec .waitFor waiting = .next t :=
  ⟨⟨_, rfl⟩, ⟨_, rfl⟩, ⟨_, rfl⟩, _, rfl⟩

/-- NO_SLOT and an illegal word. -/
theorem test_witness_ErrorsChangeOnlyStatus :
    (∃ t, exec (decode (.cmdWord 6#32)) waiting = .next t ∧ t.code.getLsbD 7 = true) ∧
    ∃ t, exec (decode (.cmdWord 0#32)) waiting = .next t ∧ t.code.getLsbD 7 = true :=
  ⟨⟨_, rfl, by decide⟩, _, rfl, by decide⟩

theorem test_witness_OnlyArgStoresWriteArgs :
    (∃ t, exec .cancel waiting = .next t) ∧ (∀ k v, Instr.cancel ≠ .st64Arg k v) ∧
    ∀ k half v, Instr.cancel ≠ .st32Arg k half v := ⟨⟨_, rfl⟩, fun _ _ => nofun, fun _ _ _ => nofun⟩

theorem test_witness_OnlyTickAdvancesTime :
    (∃ t, exec .cancel waiting = .next t) ∧ ∀ raw, Instr.cancel ≠ .tick raw := ⟨⟨_, rfl⟩, fun _ => nofun⟩

theorem test_witness_OnlyCommandsWriteResultsAndStatus :
    (∃ t, exec (.ld64 0x10) waiting = .next t) ∧ (∀ w, Instr.ld64 0x10 ≠ .illegalCommand w) ∧
    (∀ w, Instr.ld64 0x10 ≠ .st32Cmd w) ∧ (∀ raw, Instr.ld64 0x10 ≠ .tick raw) ∧
    ∀ w, Instr.ld64 0x10 ≠ decode (.cmdWord w) := by
  refine ⟨⟨_, rfl⟩, fun _ => nofun, fun _ => nofun, fun _ => nofun, fun w => ?_⟩
  show _ ≠ decodeCommand w
  unfold decodeCommand
  split_ifs <;> nofun

theorem test_witness_InvHoldsAtReset : deltaCfg.legal = true := by decide

/-- A TICK, and a state with a registration pending. -/
theorem test_witness_StepKeepsInv :
    { waiting with inputs := tickEvents [0#64] }.Inv ∧
    ∃ t, step { waiting with inputs := tickEvents [0#64] } = .next t := ⟨by decide, _, rfl⟩

theorem test_witness_UptimeNeverDecreases :
    (∀ c rest, { waiting with inputs := tickEvents [0#64] }.inputs ≠ .reset c :: rest) ∧
    ∃ t, step { waiting with inputs := tickEvents [0#64] } = .next t := ⟨fun _ _ => nofun, _, rfl⟩

end Sys2Proof.Tests
end

section
/-! SUPPORT. Resets: the configurations a machine is built for, and a step whose next arrival is a reset. -/

namespace Sys2Proof

/-- R6, R7, R37: `Config.legal` as a proposition. -/
theorem Config.legal_iff (c : Config) : c.legal = true ↔
    c.freq ≠ 0#64 ∧ c.period ≠ 0#64 ∧ 1 ≤ c.rawWidth ∧ c.rawWidth ≤ 64 ∧ 1 ≤ c.nSlots ∧ c.nSlots ≤ 65536 ∧
      (c.incMode = .delta → c.rawAtReset.toNat < 2 ^ c.rawWidth) ∧ c.base % 8 = 0 :=
  decide_eq_true_iff

/-- One parameter outside its range of R6 makes a configuration illegal. -/
theorem Config.legal_eq_false_of_outside_range {c : Config}
    (h : c.freq = 0#64 ∨ c.period = 0#64 ∨ c.rawWidth = 0 ∨ 64 < c.rawWidth ∨ c.nSlots = 0 ∨ 65536 < c.nSlots ∨
      c.incMode = .delta ∧ 2 ^ c.rawWidth ≤ c.rawAtReset.toNat) : c.legal = false := by
  refine Bool.eq_false_iff.2 fun hl => ?_
  obtain ⟨freq_ne, period_ne, one_le_width, width_le, one_le_slots, slots_le, raw_lt, -⟩ := c.legal_iff.1 hl
  rcases h with freq | period | width | width | slots | slots | ⟨delta, raw⟩
  · exact freq_ne freq
  · exact period_ne period
  · omega
  · omega
  · omega
  · omega
  · exact (raw_lt delta).not_ge raw

end Sys2Proof

namespace Sys2Proof.Machine

/-- In a legally configured machine whose next arrival is a reset, step is that reset. -/
theorem step_of_reset {s : State} {c : Config} {rest : List Event} (hl : s.cfg.legal = true)
    (hi : s.inputs = .reset c :: rest) : step s = resetStep c { s with inputs := rest } := by
  rw [step, takeNext, if_pos hl, hi]
  rfl

theorem resetStep_of_legal_eq_false {c : Config} (h : c.legal = false) (s : State) :
    resetStep c s = .refused .illegalConfiguration :=
  if_neg (Bool.eq_false_iff.1 h)

/-- Settles O9: a parameter outside its range makes the configuration illegal, and a reset refuses an illegal one. -/
theorem resetRefusesIllegalConfiguration : Obligations.ResetRefusesIllegalConfiguration := by
  intro s c rest hl outside hi
  rw [step_of_reset hl hi]
  exact resetStep_of_legal_eq_false (Config.legal_eq_false_of_outside_range outside) _

end Sys2Proof.Machine
end

section
/-! SUPPORT. The state after a reset (R35, R124), field by field. -/

namespace Sys2Proof.Machine

/-- A reset with a legal configuration goes on from that configuration's reset state; what arrives next stays. -/
theorem resetStep_of_legal {c : Config} (h : c.legal = true) (s : State) :
    resetStep c s = .next { State.resetOf c with inputs := s.inputs } :=
  if_pos h

/-- LAST_RAW starts at the raw counter's draw in DELTA mode only (R35). -/
theorem State.resetOf_lastRaw (c : Config) :
    (State.resetOf c).lastRaw = if c.incMode = .delta then c.rawAtReset else 0#64 := by
  unfold State.resetOf
  cases c.incMode <;> rfl

theorem State.resetOf_arg (c : Config) (k : Fin 3) : (State.resetOf c).arg k = 0#64 := by
  fin_cases k <;> rfl

theorem State.resetOf_statusWord (c : Config) : (State.resetOf c).statusWord = 0#64 := by
  show (0#48 ++ 0#8) ++ 0#8 = 0#64
  decide

theorem State.resetOf_slots_length (c : Config) : (State.resetOf c).slots.length = c.nSlots :=
  List.length_replicate

theorem State.eq_empty_of_mem_resetOf_slots {c : Config} {x : Slot} (h : x ∈ (State.resetOf c).slots) :
    x = Slot.empty :=
  List.eq_of_mem_replicate h

/-- Settles O8: step is the reset, and each clause is a field of the reset state. -/
theorem resetSetsEveryField : Obligations.ResetSetsEveryField := by
  intro s c rest hl hc hi
  refine ⟨_, (step_of_reset hl hi).trans (resetStep_of_legal hc _), rfl, rfl, State.resetOf_lastRaw c,
    State.resetOf_arg c, rfl, rfl, rfl, rfl, State.resetOf_statusWord c, State.resetOf_slots_length c,
    fun x hx => ?_, rfl⟩
  rw [State.eq_empty_of_mem_resetOf_slots hx]
  exact ⟨rfl, rfl, rfl, rfl⟩

end Sys2Proof.Machine
end

section
/-! SUPPORT. INFO (R26): its fields as a number, its read, and stores outside CMD and the ARG registers. -/

namespace Sys2Proof.Machine

theorem incModeBit_toNat (m : IncMode) : (incModeBit m).toNat = if m = .delta then 1 else 0 := by
  cases m <;> rfl

/-- INFO's fields at their weights (R26), for parameters that fit them. -/
theorem infoWord_toNat {c : Config} (hw : c.rawWidth < 2 ^ 7) (hn : c.nSlots < 2 ^ 32) :
    (infoWord c).toNat = c.rawWidth + 2 ^ 7 * (incModeBit c.incMode).toNat + 2 ^ 16 * c.nSlots := by
  have hm := (incModeBit c.incMode).isLt
  simp only [infoWord, BitVec.toNat_append, BitVec.toNat_ofNat, Nat.mod_eq_of_lt hw, Nat.mod_eq_of_lt hn]
  rw [← Nat.shiftLeft_add_eq_or_of_lt hw, ← Nat.shiftLeft_add_eq_or_of_lt hm]
  simp only [Nat.shiftLeft_eq, Nat.zero_mod, Nat.zero_mul, Nat.zero_or, Nat.or_zero]
  omega

/-- An 8-byte read of INFO replies with its word (R42). -/
theorem exec_ld64_info (s : State) : exec (.ld64 0x78) s = .next (s.reply (.word (infoWord s.cfg))) := rfl

/-- A store outside CMD and the ARG registers is a bus error, aligned or not (R40, R44). -/
theorem exec_decode_store_of_not_writable {off n : Nat} (hcmd : ¬(off = 0x08 ∧ n = 4))
    (harg : ¬(0x20 ≤ off ∧ off < 0x38)) (v : Word) (s : State) :
    exec (decode (.store off n v)) s = busFault off := by
  show exec (decodeStore off n v) s = _
  by_cases ha : AlignedAccess off n
  · rw [decodeStore, if_neg (not_not.2 ha), if_neg hcmd, dif_neg harg]
    rfl
  · rw [decodeStore, if_pos ha]
    rfl

/-- Settles O41: the legal ranges fit INFO's fields, and 0x78 and 0x7C lie outside CMD and the ARG registers. -/
theorem infoShowsConfiguration : Obligations.InfoShowsConfiguration := by
  intro s hl
  obtain ⟨-, -, -, width_le, -, slots_le, -, -⟩ := s.cfg.legal_iff.1 hl
  refine ⟨⟨infoWord s.cfg, exec_ld64_info s, ?_⟩, fun v => ⟨?_, ?_, ?_⟩⟩
  · rw [infoWord_toNat (by omega) (by omega), incModeBit_toNat]
    split <;> omega
  · exact exec_decode_store_of_not_writable (by decide) (by decide) v s
  · exact exec_decode_store_of_not_writable (by decide) (by decide) v s
  · exact exec_decode_store_of_not_writable (by decide) (by decide) v s

end Sys2Proof.Machine
end

section
/-! SUPPORT. Reads of the window (R41, R42): where `MemRead` answers, and with which register. -/

namespace Sys2Proof.Machine

/-- A register stands in the 8-byte slot of an offset exactly when the offset is readable (R38, R41). -/
theorem State.exists_windowReg_iff (s : State) (off : Nat) : (∃ v, s.windowReg (off / 8) = some v) ↔ Readable off := by
  unfold State.windowReg
  split
  case h_14 =>
    simp only [imp_false] at *
    exact iff_of_false nofun (by omega)
  all_goals exact iff_of_true ⟨_, rfl⟩ (by omega)

/-- An aligned read at a readable offset answers its register, or the half that the offset names (R41). -/
theorem State.memRead_of_readable {s : State} {off n : Nat} {v : Word} (ha : AlignedAccess off n) (hr : Readable off)
    (hv : s.windowReg (off / 8) = some v) :
    s.memRead off n = some (if n = 8 then .word v else .half (selectHalf (halfOf off) v)) := by
  obtain ⟨in_window, not_cmd, not_reserved_18, not_reserved_38⟩ := hr
  rw [State.memRead, if_neg (by omega), if_neg not_cmd, if_neg (by omega), hv]

/-- A read that is misaligned, of another size, or at an offset that is not readable answers nothing (R41). -/
theorem State.memRead_eq_none {s : State} {off n : Nat} (h : ¬(AlignedAccess off n ∧ Readable off)) :
    s.memRead off n = none := by
  cases hm : s.memRead off n with
  | none => rfl
  | some r =>
    obtain ⟨ha, -, v, hv, -⟩ := State.memRead_eq_some hm
    exact absurd ⟨ha, (s.exists_windowReg_iff off).1 ⟨v, hv⟩⟩ h

theorem busLoad_of_memRead_eq_some {s : State} {off n : Nat} {r : Reply} (h : s.memRead off n = some r) :
    busLoad off n s = .next (s.reply r) := by
  rw [busLoad, h]

theorem busLoad_of_memRead_eq_none {s : State} {off n : Nat} (h : s.memRead off n = none) :
    busLoad off n s = .fault (.busError off) := by
  rw [busLoad, h]
  rfl

/-- The half an offset names, as bits of its register (R39). -/
theorem selectHalf_halfOf (off : Nat) (v : Word) :
    selectHalf (halfOf off) v = if off % 8 = 0 then v.extractLsb' 0 32 else v.extractLsb' 32 32 := by
  unfold halfOf
  split <;> rfl

/-- Settles O44: a load is `MemRead` whatever its row, and `MemRead` answers exactly at aligned readable offsets. -/
theorem readsCompleteExactlyWhereReadable : Obligations.ReadsCompleteExactlyWhereReadable := by
  intro off n s
  refine ⟨fun ha hr => ?_, fun h => ?_⟩
  · obtain ⟨v, hv⟩ := (s.exists_windowReg_iff off).2 hr
    refine ⟨v, hv, ?_⟩
    rw [exec_decode_load, busLoad_of_memRead_eq_some (State.memRead_of_readable ha hr hv), selectHalf_halfOf,
      apply_ite Reply.half]
    rfl
  · rw [exec_decode_load, busLoad_of_memRead_eq_none (State.memRead_eq_none h)]

/-- An 8-byte read of a register's offset replies with that register (R42). -/
theorem exec_ld64_register (off : Nat) {s : State} {v : Word} (ha : off % 8 = 0)
    (hv : s.windowReg (off / 8) = some v) : exec (.ld64 off) s = .next (s.reply (.word v)) :=
  busLoad_of_memRead_eq_some (State.memRead_of_readable ⟨.inr rfl, ha⟩ ((s.exists_windowReg_iff off).1 ⟨v, hv⟩) hv)

theorem incModeBit_eq (m : IncMode) : incModeBit m = if m = .delta then 1#1 else 0#1 := by
  cases m <;> rfl

/-- Settles O40: the 8-byte slot at each offset holds the register that R38 places there. -/
theorem registerReadsReturnRegisters : Obligations.RegisterReadsReturnRegisters := by
  intro s
  rw [← incModeBit_eq]
  exact ⟨exec_ld64_register 0x00 rfl rfl, exec_ld64_register 0x10 rfl rfl, exec_ld64_register 0x20 rfl rfl,
    exec_ld64_register 0x28 rfl rfl, exec_ld64_register 0x30 rfl rfl, exec_ld64_register 0x40 rfl rfl,
    exec_ld64_register 0x48 rfl rfl, exec_ld64_register 0x50 rfl rfl, exec_ld64_register 0x58 rfl rfl,
    exec_ld64_register 0x60 rfl rfl, exec_ld64_register 0x68 rfl rfl, exec_ld64_register 0x70 rfl rfl,
    exec_ld64_info s⟩

end Sys2Proof.Machine
end

section
/-! SUPPORT. ARG writes (R45): what they leave unchanged, and the bytes of the window they store. -/

namespace Sys2Proof.Machine

/-- A write of ARGk changes ARG registers only. -/
theorem State.setArg_frame (s : State) (k : Fin 3) (v : Word) :
    s.setArg k v =
      { s with arg0 := (s.setArg k v).arg0, arg1 := (s.setArg k v).arg1, arg2 := (s.setArg k v).arg2 } := by
  fin_cases k <;> rfl

/-- The bytes at ARGk's offsets are those of its 8-byte slot (R38). -/
theorem div_eight_eq_arg_iff (k : Fin 3) (a : Nat) : a / 8 = 4 + k.val ↔ argOffset k ≤ a ∧ a < argOffset k + 8 := by
  unfold argOffset
  omega

/-- A byte at ARGk's offsets, by its distance from the register's first byte. -/
theorem mod_eight_of_arg {k : Fin 3} {a : Nat} (h : a / 8 = 4 + k.val) : a % 8 = a - argOffset k := by
  unfold argOffset
  omega

/-- The window shows ARGk's bytes in ARGk's slot (R38, R39). -/
theorem State.windowByte_arg (s : State) {k : Fin 3} {a : Nat} (h : a / 8 = 4 + k.val) :
    s.windowByte a = some (byteOf (s.arg k) (a % 8)) := by
  rw [State.windowByte, h, windowReg_arg]
  rfl

/-- Replacing one half of a register replaces that half's four bytes and keeps the other four (R45). -/
theorem byteOf_replaceHalf (half : HalfSel) (old : Word) (v : Half) {i : Nat} (hi : i < 8) :
    byteOf (replaceHalf half old v) i =
      if halfOffset half ≤ i ∧ i < halfOffset half + 4 then v.extractLsb' (8 * (i - halfOffset half)) 8
      else byteOf old i := by
  cases half with
  | lo =>
    rw [byteOf_replaceHalf_lo old v hi]
    simp [halfOffset]
  | hi =>
    rw [byteOf_replaceHalf_hi old v hi]
    by_cases h : i < 4
    · rw [if_pos h, if_neg (by rw [halfOffset]; omega)]
    · rw [if_neg h, if_pos (by rw [halfOffset]; omega), halfOffset]

theorem halfOffset_le (half : HalfSel) : halfOffset half ≤ 4 := by
  cases half <;> decide

/-- A write of one half of ARGk stores its four bytes and keeps every other byte of the window. -/
theorem State.windowByte_writeArgHalf (s : State) (k : Fin 3) (half : HalfSel) (v : Half) (a : Nat) :
    (s.writeArgHalf k half v).windowByte a =
      if argOffset k + halfOffset half ≤ a ∧ a < argOffset k + halfOffset half + 4 then
        some (v.extractLsb' (8 * (a - (argOffset k + halfOffset half))) 8)
      else s.windowByte a := by
  have hle := halfOffset_le half
  rw [State.writeArgHalf, windowByte_setArg]
  by_cases hslot : a / 8 = 4 + k.val
  · have hstored : (halfOffset half ≤ a - argOffset k ∧ a - argOffset k < halfOffset half + 4) ↔
        (argOffset k + halfOffset half ≤ a ∧ a < argOffset k + halfOffset half + 4) := by
      have := (div_eight_eq_arg_iff k a).1 hslot
      omega
    rw [if_pos hslot, s.windowByte_arg hslot, byteOf_replaceHalf half _ v (Nat.mod_lt a (by decide)),
      mod_eight_of_arg hslot, Nat.sub_add_eq, apply_ite some]
    exact if_congr hstored rfl rfl
  · have hnot := mt (div_eight_eq_arg_iff k a).2 hslot
    rw [if_neg hslot, if_neg (by omega)]

/-- Settles O45: both ARG rows are a `setArg`, which the frame and the byte lemmas above describe. -/
theorem argWritesAndFrame : Obligations.ArgWritesAndFrame := by
  refine ⟨fun k v s => ⟨s.setArg k v, rfl, s.arg_setArg k v, s.setArg_frame k v, fun a => ?_⟩,
    fun k half v s => ⟨s.writeArgHalf k half v, rfl, ?_, ?_, s.setArg_frame k _, fun a => ?_⟩⟩
  · rw [windowByte_setArg, ← div_eight_eq_arg_iff]
    refine ⟨fun h => ?_, fun h => if_neg h⟩
    rw [if_pos h, mod_eight_of_arg h]
    rfl
  · rintro rfl
    rw [State.writeArgHalf, State.arg_setArg, replaceHalf_lo_toNat]
  · rintro rfl
    rw [State.writeArgHalf, State.arg_setArg, replaceHalf_hi_toNat]
  · rw [State.windowByte_writeArgHalf]
    exact ⟨fun h => if_pos h, fun h => if_neg h⟩

end Sys2Proof.Machine
end

section
/-! SUPPORT. The CMD write (R46), and every store as `MemWrite` (R44). -/

namespace Sys2Proof

/-- Words below 1 or above 8 name no command (R61, R62). -/
theorem decodeCommand_of_no_command {w : Half} (h : w.toNat = 0 ∨ 8 < w.toNat) :
    decodeCommand w = .illegalCommand w := by
  rcases decodeCommand_cases w with ⟨rfl, -⟩ | ⟨rfl, -⟩ | ⟨rfl, -⟩ | ⟨rfl, -⟩ | ⟨rfl, -⟩ | ⟨rfl, -⟩ | ⟨rfl, -⟩ |
    ⟨rfl, -⟩ | hw
  on_goal 9 => exact hw
  all_goals exact absurd h (by decide)

end Sys2Proof

namespace Sys2Proof.Machine

/-- Every CMD word's command completes, an illegal word's among them (R46). -/
theorem exec_decodeCommand_completes (w : Half) (s : State) : ∃ t, exec (decodeCommand w) s = .next t := by
  rcases decodeCommand_cases w with ⟨-, hw⟩ | ⟨-, hw⟩ | ⟨-, hw⟩ | ⟨-, hw⟩ | ⟨-, hw⟩ | ⟨-, hw⟩ | ⟨-, hw⟩ |
    ⟨-, hw⟩ | hw <;> rw [hw]
  · exact ⟨_, rfl⟩
  · exact ⟨_, rfl⟩
  · exact ⟨_, execToDatetime_eq s _ rfl⟩
  · rw [exec, execFromDatetime]
    split <;> exact ⟨_, rfl⟩
  · exact ⟨_, execClockNow_eq s _ rfl⟩
  · exact ⟨_, rfl⟩
  · rw [exec, execWaitFor]
    split <;> exact ⟨_, rfl⟩
  · rw [exec, execCancel]
    split <;> exact ⟨_, rfl⟩
  · exact ⟨_, rfl⟩

/-- A CMD write performs the command its word decodes to (R46). -/
theorem exec_st32Cmd (w : Half) (s : State) : exec (.st32Cmd w) s = exec (decodeCommand w) s :=
  issueCommand_eq w s

theorem decode_store_cmd (v : Word) : decode (.store 0x08 4 v) = .st32Cmd (v.setWidth 32) := rfl

/-- Settles O46: a CMD write is its word's command, and every command completes. -/
theorem cmdWriteIssuesCommand : Obligations.CmdWriteIssuesCommand := by
  intro v w s
  refine ⟨decode_store_cmd v, exec_st32Cmd w s, fun h => ?_, ?_⟩
  · rw [exec_st32Cmd, decodeCommand_of_no_command h]
    rfl
  · rw [exec_st32Cmd]
    exact exec_decodeCommand_completes w s

/-- `MemWrite` outside CMD and the ARG registers is a bus error, aligned or not (R44). -/
theorem State.memWrite_of_not_writable {off n : Nat} (hcmd : ¬(off = 0x08 ∧ n = 4))
    (harg : ¬(0x20 ≤ off ∧ off < 0x38)) (v : Word) (s : State) : s.memWrite off n v = busFault off := by
  rw [State.memWrite, if_neg hcmd, dif_neg harg, ite_self]

/-- A store whose size or alignment is illegal is a bus error at any offset, by its row and by `MemWrite` (R40). -/
theorem exec_decode_store_of_not_aligned {off n : Nat} (ha : ¬AlignedAccess off n) (v : Word) (s : State) :
    exec (decode (.store off n v)) s = s.memWrite off n v := by
  rw [decode, decodeStore, if_pos ha, State.memWrite, if_pos (.inl ha)]
  rfl

/-- An aligned store to the ARG registers is `write_arg` on the register or the half, by its row and by `MemWrite`
(R45). -/
theorem exec_decode_store_arg {off n : Nat} (ha : AlignedAccess off n) (harg : 0x20 ≤ off ∧ off < 0x38) (v : Word)
    (s : State) : exec (decode (.store off n v)) s = s.memWrite off n v := by
  have hcmd : ¬(off = 0x08 ∧ n = 4) := by omega
  have hlegal : ¬(¬AlignedAccess off n ∨ 0x80 ≤ off) := by omega
  rw [decode, decodeStore, if_neg (not_not.2 ha), if_neg hcmd, dif_pos harg, State.memWrite, if_neg hlegal,
    if_neg hcmd, dif_pos harg]
  split <;> rfl

/-- Settles O47: the branches of `MemWrite` are the rows a store decodes to. -/
theorem storesFollowMemWrite : Obligations.StoresFollowMemWrite := by
  intro off n v s
  by_cases ha : AlignedAccess off n
  case neg => exact exec_decode_store_of_not_aligned ha v s
  by_cases hcmd : off = 0x08 ∧ n = 4
  · obtain ⟨rfl, rfl⟩ := hcmd
    rfl
  by_cases harg : 0x20 ≤ off ∧ off < 0x38
  · exact exec_decode_store_arg ha harg v s
  · rw [exec_decode_store_of_not_writable hcmd harg, State.memWrite_of_not_writable hcmd harg]

end Sys2Proof.Machine
end

section
/-! SUPPORT. Illegal CMD words (R61, R62): R62's bit condition as the range of the word, and their effect. -/

namespace Sys2Proof

/-- Only the words 1 to 8 name a command (R61). -/
theorem decodeCommand_eq_illegalCommand_iff (w : Half) :
    decodeCommand w = .illegalCommand w ↔ w.toNat = 0 ∨ 8 < w.toNat := by
  refine ⟨fun h => ?_, decodeCommand_of_no_command⟩
  unfold decodeCommand at h
  split_ifs at h
  bv_omega

/-- R62's reserved bits and OPCODE ranges leave exactly the words 1 to 8 legal. -/
theorem illegalWord_iff (w : Half) : IllegalWord w ↔ w.toNat = 0 ∨ 8 < w.toNat := by
  have reserved : w >>> 8 = 0#32 ↔ w.toNat / 2 ^ 8 = 0 := by
    rw [← BitVec.toNat_inj, BitVec.toNat_ushiftRight, Nat.shiftRight_eq_div_pow, BitVec.toNat_ofNat, Nat.zero_mod]
  have opcode_zero : w.setWidth 8 = 0#8 ↔ w.toNat % 2 ^ 8 = 0 := by
    rw [← BitVec.toNat_inj, BitVec.toNat_setWidth, BitVec.toNat_ofNat, Nat.zero_mod]
  have opcode_high : 9#8 ≤ w.setWidth 8 ↔ 9 ≤ w.toNat % 2 ^ 8 := by
    rw [BitVec.le_def, BitVec.toNat_setWidth]
    rfl
  rw [IllegalWord, ne_eq, reserved, opcode_zero, opcode_high]
  omega

end Sys2Proof

namespace Sys2Proof.Machine

/-- An illegal word's command writes CODE and LAST_OP, nothing else (R62). -/
theorem exec_illegalCommand (w : Half) (s : State) :
    exec (.illegalCommand w) s = .next { s with code := 0x80#8, lastOp := w.setWidth 8 } := rfl

/-- Settles O2: decoding to the illegal command and R62's condition are the same range of words. -/
theorem illegalWordsChangeOnlyStatus : Obligations.IllegalWordsChangeOnlyStatus := fun w s =>
  ⟨(decodeCommand_eq_illegalCommand_iff w).trans (illegalWord_iff w).symm, exec_illegalCommand w s⟩

/-- Settles O1: each of the eight words by evaluation, every other word by its range. -/
theorem commandWordsDecode : Obligations.CommandWordsDecode :=
  ⟨rfl, rfl, rfl, rfl, rfl, rfl, rfl, rfl, fun _ => decodeCommand_of_no_command⟩

end Sys2Proof.Machine
end

section
/-! SUPPORT. The commands NOW and ELAPSED and the 8-byte UPTIME read (R74, R77, R78). -/

namespace Sys2Proof.Machine

/-- NOW writes RES0 and STATUS, nothing else (R77). -/
theorem exec_now (s : State) :
    exec .now s = .next { s with res0 := s.uptime, code := 0x00#8, lastOp := 0x01#8 } := rfl

/-- Settles O10: the first of the eight CMD words, and NOW's update. -/
theorem nowReadsUptime : Obligations.NowReadsUptime := ⟨rfl, exec_now⟩

/-- ELAPSED writes RES0 and STATUS, nothing else (R78). -/
theorem exec_elapsed (s : State) :
    exec .elapsed s =
      .next { s with res0 := elapsedSince s.uptime s.arg0, code := 0x00#8, lastOp := 0x02#8 } := rfl

/-- Subtraction of natural numbers stops at 0, as ELAPSED does (R78). -/
theorem elapsedSince_toNat (u since : Word) : (elapsedSince u since).toNat = u.toNat - since.toNat := by
  unfold elapsedSince
  split
  · next past => exact BitVec.toNat_sub_of_le past
  · next future =>
    have : u.toNat < since.toNat := BitVec.not_le.1 future
    rw [BitVec.toNat_ofNat, Nat.zero_mod]
    omega

/-- Settles O11: both cases are the one natural-number difference. -/
theorem elapsedSaturatesAtZero : Obligations.ElapsedSaturatesAtZero := by
  refine ⟨rfl, fun s => ⟨_, exec_elapsed s, fun _ => elapsedSince_toNat _ _, fun future => ?_⟩⟩
  rw [elapsedSince_toNat, Nat.sub_eq_zero_of_le future.le]

/-- The 8-byte read at offset 0 answers UPTIME (R74). -/
theorem State.memRead_uptime (s : State) : s.memRead 0x00 8 = some (.word s.uptime) := rfl

/-- Settles O15: the read completes, and a read's reply enters the read log only. -/
theorem uptimeReadIsWhole : Obligations.UptimeReadIsWhole :=
  ⟨rfl, fun s => busLoad_of_memRead_eq_some s.memRead_uptime⟩

end Sys2Proof.Machine
end

section
/-! SUPPORT. TICK in its two modes (R71 to R73). -/

namespace Sys2Proof.Machine

/-- A TICK advances the counter, then runs the comparison engine (R71). -/
theorem exec_tick (raw : Word) (s : State) : exec (.tick raw) s = .next (s.advance raw).fire := rfl

/-- In PERIOD mode a TICK adds P, and neither reads nor writes LAST_RAW (R72). -/
theorem exec_tick_of_period {s : State} (hm : s.cfg.incMode = .period) (raw : Word) :
    exec (.tick raw) s = .next (State.fire { s with uptime := saturatingAdd s.uptime s.cfg.period.toNat }) := by
  rw [exec_tick, State.advance, State.tickIncrement, State.nextLastRaw, hm]

/-- Settles O12: `exec_tick_of_period` holds from any LAST_RAW with any raw value, and `fire()` does not look at it. -/
theorem periodTickAddsExactlyP : Obligations.PeriodTickAddsExactlyP := fun raw s hm =>
  ⟨_, exec_tick_of_period hm raw, saturatingAdd_toNat _ _, rfl,
    fun r l => exec_tick_of_period (s := { s with lastRaw := l }) hm r⟩

/-- The difference of two words is their difference modulo 2^64, and so modulo every smaller power of 2. -/
theorem sub_toNat_emod_two_pow (a b : Word) {width : Nat} (hw : width ≤ 64) :
    (((a - b).toNat % 2 ^ width : Nat) : Int) = ((a.toNat : Int) - b.toNat) % 2 ^ width := by
  have modular : ((a - b).toNat : Int) = ((a.toNat : Int) - b.toNat) % 2 ^ 64 := by
    have := a.isLt
    have := b.isLt
    rw [BitVec.toNat_sub]
    omega
  push_cast
  rw [modular, Int.emod_emod_of_dvd _ (pow_dvd_pow 2 hw)]

/-- In DELTA mode a TICK's increment is the modular difference of R73. -/
theorem State.tickIncrement_of_delta {s : State} (hm : s.cfg.incMode = .delta) (hw : s.cfg.rawWidth ≤ 64)
    (raw : Word) :
    (s.tickIncrement raw : Int) = ((raw.toNat : Int) - s.lastRaw.toNat) % 2 ^ s.cfg.rawWidth := by
  rw [State.tickIncrement, hm]
  exact sub_toNat_emod_two_pow raw s.lastRaw hw

/-- A raw value of the port's width is kept whole (R67). -/
theorem lowBits_of_lt {width : Nat} {raw : Word} (h : raw.toNat < 2 ^ width) : lowBits width raw = raw := by
  apply BitVec.eq_of_toNat_eq
  rw [lowBits_toNat, Nat.mod_eq_of_lt h]

/-- In DELTA mode a TICK adds its increment and makes the raw value the reference point (R73). -/
theorem exec_tick_of_delta {s : State} (hm : s.cfg.incMode = .delta) {raw : Word}
    (hraw : raw.toNat < 2 ^ s.cfg.rawWidth) :
    exec (.tick raw) s =
      .next (State.fire { s with uptime := saturatingAdd s.uptime (s.tickIncrement raw), lastRaw := raw }) := by
  have reference : s.nextLastRaw raw = raw := by
    rw [State.nextLastRaw, hm]
    exact lowBits_of_lt hraw
  rw [exec_tick, State.advance, reference]

/-- Settles O13: the sum saturates, and its increment is the modular difference. -/
theorem deltaTickAddsModularDelta : Obligations.DeltaTickAddsModularDelta := by
  intro raw s hm hw hraw
  refine ⟨_, exec_tick_of_delta hm hraw, ?_, rfl⟩
  rw [State.fire_uptime, saturatingAdd_toNat, ← State.tickIncrement_of_delta hm hw]
  push_cast
  rfl

end Sys2Proof.Machine
end

section
/-! SUPPORT. What an instruction does to UPTIME, and the saturated counter (R18, R79). -/

namespace Sys2Proof.Machine

/-- `CommandEffect`'s shape names neither UPTIME (R18) nor the arrivals. -/
theorem CommandEffect.uptime_eq {s t : State} (h : CommandEffect s t) : t.uptime = s.uptime := by
  rw [h.shape]

theorem CommandEffect.inputs_eq {s t : State} (h : CommandEffect s t) : t.inputs = s.inputs := by
  rw [h.shape]

/-- Only a TICK changes UPTIME, by its saturating sum (R18, R71). -/
theorem exec_uptime {i : Instr} {s t : State} (h : exec i s = .next t) :
    t.uptime = s.uptime ∨
      ∃ raw, i = .tick raw ∧ t.uptime = saturatingAdd s.uptime (s.tickIncrement raw) := by
  rcases exec_next h with ⟨raw, hi, rfl⟩ | ⟨-, ⟨r, rfl⟩ | command⟩ | ⟨k, v, -, rfl⟩
  · exact .inr ⟨raw, hi, rfl⟩
  · exact .inl rfl
  · exact .inl command.uptime_eq
  · exact .inl (s.setArg_uptime k v)

/-- No instruction touches the arrivals (log 1). -/
theorem exec_inputs {i : Instr} {s t : State} (h : exec i s = .next t) : t.inputs = s.inputs := by
  rcases exec_next h with ⟨raw, -, rfl⟩ | ⟨-, ⟨r, rfl⟩ | command⟩ | ⟨k, v, -, rfl⟩
  · rfl
  · rfl
  · exact command.inputs_eq
  · exact s.setArg_inputs k v

theorem saturatingAdd_toNat_of_max64_le {u : Word} {inc : Nat} (h : max64 ≤ u.toNat + inc) :
    (saturatingAdd u inc).toNat = max64 := by
  rw [saturatingAdd_toNat, Nat.min_eq_right h]

theorem le_saturatingAdd (u : Word) (inc : Nat) : u.toNat ≤ (saturatingAdd u inc).toNat := by
  rw [saturatingAdd_toNat]
  exact Nat.le_min.2 ⟨Nat.le_add_right _ _, Nat.le_pred_of_lt u.isLt⟩

/-- No deadline lies above MAX64. -/
theorem le_of_saturated {u : Word} (hu : u.toNat = max64) (w : Word) : w ≤ u := by
  rw [BitVec.le_def, hu]
  exact Nat.le_pred_of_lt w.isLt

/-- At MAX64 every pending slot is due (R79, R94). -/
theorem Slot.due_iff_of_saturated {u : Word} (hu : u.toNat = max64) (x : Slot) : x.due u ↔ x.state = .pending :=
  and_iff_left (le_of_saturated hu x.deadline)

/-- At MAX64 `fire()` leaves no slot pending (R79). -/
theorem Slot.fired_state_of_saturated {u : Word} (hu : u.toNat = max64) (x : Slot) : (x.fired u).state = .free := by
  cases hx : (x.fired u).state with
  | free => rfl
  | pending => exact absurd (le_of_saturated hu x.deadline) (BitVec.not_le.2 (Slot.fired_pending hx).2)

/-- At MAX64 `fire()` emits one WAKE for every pending slot, in slot order (R79, R94). -/
theorem wakesFrom_of_saturated {u : Word} (hu : u.toNat = max64) (i : Nat) (l : List Slot) :
    wakesFrom u i l = (l.zipIdx i).filterMap fun p =>
      if p.1.state = .pending then some ⟨p.1.waker, handleOf p.1.gen p.2⟩ else none := by
  simp only [wakesFrom_eq, Slot.due_iff_of_saturated hu]

/-- WAIT_UNTIL's body at a deadline already reached: READY (R98). -/
theorem State.wait_of_reached {s : State} {target : Word} (h : target ≤ s.uptime) (op : Byte) (waker : Word) :
    s.wait op target waker = State.finish { s with res0 := 0#64, res1 := target } op codeReady :=
  if_pos h

/-- Once UPTIME is MAX64 every instruction keeps it there (R79). -/
theorem exec_uptime_of_saturated {i : Instr} {s t : State} (hs : s.uptime.toNat = max64) (h : exec i s = .next t) :
    t.uptime.toNat = max64 := by
  rcases exec_uptime h with kept | ⟨raw, -, advanced⟩
  · rw [kept, hs]
  · rw [advanced]
    exact saturatingAdd_toNat_of_max64_le (hs ▸ Nat.le_add_right _ _)

/-- Settles O14: at MAX64 every pending slot is due, every sum saturates and every deadline is reached. -/
theorem uptimeSaturates : Obligations.UptimeSaturates := by
  refine ⟨fun raw s hsum => ?_, fun s hs => ⟨fun i t h => exec_uptime_of_saturated hs h, ?_⟩⟩
  · have hmax : (s.advance raw).uptime.toNat = max64 := saturatingAdd_toNat_of_max64_le hsum.le
    refine ⟨_, exec_tick raw s, hmax, fun x hx => ?_, ?_⟩
    · obtain ⟨y, -, rfl⟩ := List.mem_map.1 hx
      exact Slot.fired_state_of_saturated hmax y
    · rw [State.fire_wakeLog, wakesFrom_of_saturated hmax]
      rfl
  · rw [exec, execWaitUntil, State.wait_of_reached (le_of_saturated hs s.arg0)]
    rfl

end Sys2Proof.Machine
end

section
/-! SUPPORT. Runs without a reset keep UPTIME from decreasing (R19), and the split read of UPTIME (R75). -/

namespace Sys2Proof.Machine

/-- No instruction decreases UPTIME (R19). -/
theorem exec_uptime_le {i : Instr} {s t : State} (h : exec i s = .next t) : s.uptime.toNat ≤ t.uptime.toNat := by
  rcases exec_uptime h with kept | ⟨raw, -, advanced⟩
  · rw [kept]
  · rw [advanced]
    exact le_saturatingAdd _ _

/-- A step with no reset among the arrivals leaves none there and does not decrease UPTIME. -/
theorem step_of_noReset {s t : State} (hs : s.NoReset) (h : step s = .next t) :
    t.NoReset ∧ s.uptime.toNat ≤ t.uptime.toNat := by
  obtain ⟨-, ⟨-, rfl⟩ | ⟨e, rest, hi, hexec⟩ | ⟨c, rest, hi, -⟩⟩ := step_next h
  · exact ⟨hs, le_rfl⟩
  · have huptime := exec_uptime_le hexec
    refine ⟨fun c hc => hs c ?_, huptime⟩
    rw [exec_inputs hexec] at hc
    rw [hi]
    exact List.mem_cons_of_mem _ hc
  · exact absurd (hi ▸ List.mem_cons_self) (hs c)

/-- A run with no reset among the arrivals leaves none there and does not decrease UPTIME (R19). -/
theorem run_of_noReset {n : Nat} {s t : State} (hs : s.NoReset) (h : core.run n s = .next t) :
    t.NoReset ∧ s.uptime.toNat ≤ t.uptime.toNat := by
  induction n generalizing s with
  | zero =>
    obtain rfl := Host.Outcome.next.inj h
    exact ⟨hs, le_rfl⟩
  | succ n ih =>
    obtain ⟨r, hstep, hrun⟩ := step_of_run_succ h
    obtain ⟨hr, hsr⟩ := step_of_noReset hs hstep
    obtain ⟨ht, hrt⟩ := ih hr hrun
    exact ⟨ht, hsr.trans hrt⟩

/-- The 4-byte read at offset 4 answers UPTIME[63:32] (R43). -/
theorem toNat_of_memRead_uptime_hi {s : State} {h : Half} (hr : s.memRead 0x04 4 = some (.half h)) :
    h.toNat = s.uptime.toNat / 2 ^ 32 := by
  obtain rfl : selectHalf .hi s.uptime = h := Reply.half.inj (Option.some.inj hr)
  exact selectHalf_hi_toNat s.uptime

/-- The 4-byte read at offset 0 answers UPTIME[31:0] (R43). -/
theorem toNat_of_memRead_uptime_lo {s : State} {lo : Half} (hr : s.memRead 0x00 4 = some (.half lo)) :
    lo.toNat = s.uptime.toNat % 2 ^ 32 := by
  obtain rfl : selectHalf .lo s.uptime = lo := Reply.half.inj (Option.some.inj hr)
  exact selectHalf_lo_toNat s.uptime

/-- The value of the protocol as a number: the second high read and the low read that counts (R75). -/
theorem splitRead_toNat (h1 lo h2 lo' : Half) :
    (splitRead h1 lo h2 lo').toNat = h2.toNat * 2 ^ 32 + (if h1 = h2 then lo else lo').toNat := by
  rw [splitRead, BitVec.toNat_append, ← Nat.shiftLeft_add_eq_or_of_lt (BitVec.isLt _), Nat.shiftLeft_eq]

/-- Settles O19: UPTIME never decreases along the run, so equal high halves at both ends pin the one at the low read,
and otherwise only the carries after the second high read are missing. -/
theorem splitReadProtocol : Obligations.SplitReadProtocol := by
  intro s t u v l m n h1 lo h2 lo' hs runT runU runV readH1 readLo readH2 readLo'
  obtain ⟨ht, hst⟩ := run_of_noReset hs runT
  obtain ⟨hu, htu⟩ := run_of_noReset ht runU
  obtain ⟨-, huv⟩ := run_of_noReset hu runV
  have hH1 := toNat_of_memRead_uptime_hi readH1
  have hLo := toNat_of_memRead_uptime_lo readLo
  have hH2 := toNat_of_memRead_uptime_hi readH2
  have hLo' := toNat_of_memRead_uptime_lo readLo'
  refine ⟨fun agree => BitVec.eq_of_toNat_eq ?_, fun differ => ?_⟩
  · rw [splitRead_toNat, if_pos agree]
    rw [agree] at hH1
    omega
  · refine ⟨v.uptime.toNat / 2 ^ 32 - u.uptime.toNat / 2 ^ 32, ?_, ?_⟩
    · rw [splitRead_toNat, if_neg differ]
      omega
    · omega

end Sys2Proof.Machine
end

section
/-! SUPPORT. The civil date as R86 words it, and the two commands that write the date of an uptime value (R90, R92). -/

namespace Sys2Proof.Machine

/-- No later year begins by day number `d` (R86). -/
theorem le_yearOf {d y : Nat} (h : daysBeforeYear y ≤ d) : y ≤ yearOf d := by
  obtain ⟨-, -, before_next⟩ := yearOf_bounds d
  by_contra later
  have := daysBeforeYear_mono (show yearOf d + 1 ≤ y by omega)
  omega

/-- The closed-form search (log 8) finds R86's largest year and month. -/
theorem isCivil_civil (d : Nat) : IsCivil d (civil d).1 (civil d).2.1 (civil d).2.2 := by
  obtain ⟨from_1970, begun, -⟩ := yearOf_bounds d
  have month := monthSearch_spec (yearOf d) (d - daysBeforeYear (yearOf d)) 12 (by decide)
  rw [civil_eq]
  exact ⟨⟨from_1970, begun, fun _ _ => le_yearOf⟩, month, rfl⟩

/-- `to_fields` gives the date of its uptime value, field by field (R87). -/
theorem toFields_isDateOf (c : Config) (u : Word) : IsDateOf c u (toFields c u) := by
  obtain ⟨year, month, day⟩ := toFields_date c u
  obtain ⟨hour, minute, second, reserved⟩ := toFields_time c u
  refine ⟨?_, hour, minute, second, reserved, toFields_subsec c u⟩
  rw [year, month, day]
  exact isCivil_civil _

/-- Settles O22: the words are those of `to_fields(ARG0)`. -/
theorem toDatetimeGivesTheDate : Obligations.ToDatetimeGivesTheDate :=
  ⟨rfl, fun s _ => ⟨_, toFields_isDateOf s.cfg s.arg0, execToDatetime_eq s _ rfl⟩⟩

/-- Settles O23: the words are those of `to_fields(UPTIME)`. -/
theorem clockNowGivesDateAndSample : Obligations.ClockNowGivesDateAndSample :=
  ⟨rfl, fun s _ => ⟨_, toFields_isDateOf s.cfg s.uptime, execClockNow_eq s _ rfl⟩⟩

end Sys2Proof.Machine
end

section
/-! SUPPORT. FROM_DATETIME (R88, R89, R91): the check of the date words, and each outcome of the conversion. -/

namespace Sys2Proof.Machine

/-- Settles O24: each field is its word divided down to the field's bits (R64). -/
theorem validDateChecksEveryField : Obligations.ValidDateChecksEveryField := by
  intro c d
  rw [ValidDate, dtYear_eq, dtMonth_eq, dtDay_eq, dtHour_eq, dtMinute_eq, dtSecond_eq, dtReserved_eq]
  simp only [and_assoc]

/-- `from_fields` fails where a check of R88 or R89 does. -/
theorem fromFields_eq_none {c : Config} {d : DateWords}
    (h : ¬ValidDate c d ∨ secondsOf d < c.epoch.toNat ∨ max64 < ticksOf c d) : fromFields c d = none := by
  rw [fromFields]
  split_ifs with valid early late
  · rfl
  · rfl
  · exact h.elim (· valid) (·.elim early late)
  · rfl

/-- `from_fields` gives the exact tick count where every check passes (R89). -/
theorem fromFields_eq_some {c : Config} {d : DateWords} (valid : ValidDate c d)
    (reached : c.epoch.toNat ≤ secondsOf d) (fits : ticksOf c d ≤ max64) :
    fromFields c d = some (BitVec.ofNat 64 (ticksOf c d)) := by
  rw [fromFields, if_neg (not_not.2 valid), if_neg reached.not_gt, if_neg fits.not_gt]

/-- FROM_DATETIME of a date that does not convert writes STATUS, nothing else (R91). -/
theorem exec_fromDatetime_of_none {s : State} (h : fromFields s.cfg ⟨s.arg0, s.arg1, s.arg2⟩ = none) :
    exec .fromDatetime s = .next { s with code := 0x82#8, lastOp := 0x04#8 } := by
  rw [exec, execFromDatetime, h]
  rfl

/-- FROM_DATETIME of a date that converts writes RES0 and STATUS, nothing else (R91). -/
theorem exec_fromDatetime_of_some {s : State} {r : Word}
    (h : fromFields s.cfg ⟨s.arg0, s.arg1, s.arg2⟩ = some r) :
    exec .fromDatetime s = .next { s with res0 := r, code := 0x00#8, lastOp := 0x04#8 } := by
  rw [exec, execFromDatetime, h]
  rfl

/-- Settles O25: each clause is one outcome of `from_fields`, and a count up to MAX64 is a word's exact value. -/
theorem fromDatetimeGivesTicks : Obligations.FromDatetimeGivesTicks := by
  refine ⟨rfl, ?_⟩
  rintro s _ rfl valid
  refine ⟨fun early => ?_, fun _ late => ?_, fun reached fits => ?_⟩
  · exact exec_fromDatetime_of_none (fromFields_eq_none (.inr (.inl early)))
  · exact exec_fromDatetime_of_none (fromFields_eq_none (.inr (.inr late)))
  · exact ⟨_, (BitVec.toNat_ofNat _ _).trans (Nat.mod_eq_of_lt (Nat.lt_of_le_pred (by decide) fits)),
      exec_fromDatetime_of_some (fromFields_eq_some valid reached fits)⟩

end Sys2Proof.Machine
end

section
/-! SUPPORT. WAIT_UNTIL and WAIT_FOR (R98, R99): each outcome of their common body, and how the two differ. -/

namespace Sys2Proof.Machine

/-- WAIT_UNTIL's body at a target ahead with every slot PENDING: NO_SLOT (R98). -/
theorem State.wait_of_full {s : State} {target : Word} (ahead : s.uptime < target)
    (full : ∀ x ∈ s.slots, x.state = .pending) (op : Byte) (waker : Word) :
    s.wait op target waker = s.finish op codeNoSlot := by
  rw [State.wait, if_neg (BitVec.not_le.2 ahead), firstFree_eq_none.2 full]

/-- WAIT_UNTIL's body at a target ahead registers in the lowest FREE slot (R93, R98): no other outcome of
`State.wait_cases` is possible, and only one slot is the lowest FREE one. -/
theorem State.wait_of_lowest_free {s : State} {target : Word} {i : Nat} {x : Slot} (ahead : s.uptime < target)
    (hx : s.slots[i]? = some x) (free : x.state = .free)
    (lowest : ∀ j, j < i → ∀ y, s.slots[j]? = some y → y.state = .pending) (op : Byte) (waker : Word) :
    s.wait op target waker = State.finish { s with
      slots := s.slots.set i ⟨.pending, target, waker, nextGen x.gen⟩
      res0 := handleOf (nextGen x.gen) i, res1 := target } op codeOk := by
  have first := firstFree_of_lowest hx free lowest
  rcases s.wait_cases op target waker with ⟨reached, -⟩ | ⟨-, full, -⟩ | ⟨-, j, y, hy, hyFree, hyLowest, h⟩
  · exact absurd reached (BitVec.not_le.2 ahead)
  · rw [firstFree_eq_none.2 full] at first
    exact nomatch first
  · obtain rfl : i = j := Option.some.inj (first.symm.trans (firstFree_of_lowest hy hyFree hyLowest))
    obtain rfl : x = y := Option.some.inj (hx.symm.trans hy)
    exact h

/-- A slot's generation counts up and skips 0 (R93). -/
theorem nextGen_toNat (g : Gen) :
    (nextGen g).toNat = if g.toNat = 2 ^ 48 - 1 then 1 else g.toNat + 1 := by
  have last : g = BitVec.ofNat 48 (2 ^ 48 - 1) ↔ g.toNat = 2 ^ 48 - 1 := BitVec.toNat_inj.symm
  rw [nextGen]
  simp only [last]
  split
  · rfl
  · next more =>
    have := g.isLt
    rw [BitVec.toNat_add, BitVec.toNat_ofNat]
    omega

/-- Settles O30: the three clauses are the three outcomes of WAIT_UNTIL's body. -/
theorem waitUntilOutcomes : Obligations.WaitUntilOutcomes := by
  refine ⟨rfl, fun s => ⟨fun reached => ?_, fun ahead full => ?_, fun i x ahead hx free lowest => ?_⟩⟩
  · rw [exec, execWaitUntil, State.wait_of_reached reached]
    rfl
  · rw [exec, execWaitUntil, State.wait_of_full ahead full]
    rfl
  · refine ⟨nextGen x.gen, nextGen_toNat x.gen, ?_⟩
    rw [exec, execWaitUntil, State.wait_of_lowest_free ahead hx free lowest]
    rfl

/-- WAIT_UNTIL's body does not read ARG0, and the opcode byte reaches LAST_OP only (R98, R99). -/
theorem State.wait_eq_wait_with_arg0 (s : State) (a : Word) (op op' : Byte) (target waker : Word) :
    s.wait op target waker =
      { State.wait { s with arg0 := a } op' target waker with arg0 := s.arg0, lastOp := op } := by
  unfold State.wait
  split
  · rfl
  · cases firstFree s.slots with
    | none => rfl
    | some i => rfl

/-- WAIT_FOR of a sum above MAX64 writes STATUS, nothing else (R99). -/
theorem exec_waitFor_of_overflow {s : State} (overflow : max64 < s.uptime.toNat + s.arg0.toNat) :
    exec .waitFor s = .next { s with code := 0x81#8, lastOp := 0x07#8 } := by
  rw [exec, execWaitFor, if_pos overflow]
  rfl

/-- WAIT_FOR of a sum up to MAX64 is WAIT_UNTIL's body at that sum (R99). -/
theorem exec_waitFor_of_fits {s : State} (fits : s.uptime.toNat + s.arg0.toNat ≤ max64) :
    exec .waitFor s = .next (s.wait 0x07#8 (s.uptime + s.arg0) s.arg1) := by
  rw [exec, execWaitFor, if_neg fits.not_gt]

/-- Settles O31: a sum up to MAX64 is the word sum, and the two commands share their body. -/
theorem waitForIsWaitUntilAtSum : Obligations.WaitForIsWaitUntilAtSum := by
  refine ⟨rfl, fun s => ⟨exec_waitFor_of_overflow, fun fits => ?_⟩⟩
  refine ⟨s.uptime + s.arg0, _, BitVec.toNat_add_of_lt (Nat.lt_of_le_pred (by decide) fits), rfl, ?_⟩
  rw [exec_waitFor_of_fits fits, s.wait_eq_wait_with_arg0 (s.uptime + s.arg0) 0x07#8 0x06#8]

end Sys2Proof.Machine
end

section
/-! SUPPORT. CANCEL (R100): the handles it releases, by arithmetic on the handle. -/

namespace Sys2Proof.Machine

/-- A handle is live if its low 16 bits index a PENDING slot whose GEN its other bits hold (R66, R100). -/
theorem State.live_iff (s : State) (h : Word) : s.Live h ↔
    ∃ x, h.toNat % 2 ^ 16 < s.cfg.nSlots ∧ s.slots[h.toNat % 2 ^ 16]? = some x ∧ x.state = .pending ∧
      x.gen.toNat = h.toNat / 2 ^ 16 := by
  rw [State.Live, handleSlot_eq, ← BitVec.toNat_inj, handleGen_toNat]
  constructor
  · rintro ⟨inRange, pending, gen⟩
    exact ⟨_, inRange, State.getElem?_of_pending pending, pending, gen⟩
  · rintro ⟨x, inRange, hx, pending, gen⟩
    rw [State.slot_of_getElem? hx]
    exact ⟨inRange, pending, gen⟩

/-- CANCEL of a live handle frees its slot and writes RES0 and STATUS, nothing else (R100). -/
theorem exec_cancel_of_live {s : State} {x : Slot} (live : s.Live s.arg0)
    (hx : s.slots[s.arg0.toNat % 2 ^ 16]? = some x) :
    exec .cancel s = .next { s with
      slots := s.slots.set (s.arg0.toNat % 2 ^ 16) { x with state := .free }
      res0 := 1#64, code := 0x00#8, lastOp := 0x08#8 } := by
  rw [exec, execCancel_of_live live, State.release, handleSlot_eq, State.slot_of_getElem? hx]
  rfl

/-- CANCEL of any other handle writes RES0 and STATUS, nothing else (R100). -/
theorem exec_cancel_of_not_live {s : State} (h : ¬s.Live s.arg0) :
    exec .cancel s = .next { s with res0 := 0#64, code := 0x00#8, lastOp := 0x08#8 } := by
  rw [exec, execCancel_of_not_live h]
  rfl

/-- Settles O33: the match condition is that ARG0 is a live handle. -/
theorem cancelReleasesOnExactMatch : Obligations.CancelReleasesOnExactMatch := by
  refine ⟨rfl, fun s => ⟨fun x inRange hx pending gen => ?_, fun noMatch => ?_⟩⟩
  · exact exec_cancel_of_live ((s.live_iff s.arg0).2 ⟨x, inRange, hx, pending, gen⟩) hx
  · exact exec_cancel_of_not_live fun live => noMatch ((s.live_iff s.arg0).1 live)

end Sys2Proof.Machine
end

section
/-! SUPPORT. The comparison engine slot by slot (R94). -/

namespace Sys2Proof.Machine

/-- Settles O34: a TICK ends in `fire()` at the new UPTIME, which maps `Slot.fired` over the slot file and appends the
WAKE events of the due slots in ascending order. -/
theorem tickFiresReachedDeadlines : Obligations.TickFiresReachedDeadlines := by
  refine fun raw s => ⟨_, exec_tick raw s, fun i => ?_, ?_⟩
  · rw [State.fire_slots, List.getElem?_map]
    rfl
  · rw [State.fire_wakeLog, wakesFrom_eq]
    rfl

end Sys2Proof.Machine
end

section
/-! SUPPORT. The codes a command ends in (R65, R104): which CMD word can answer which, and when a WAIT finds no slot. -/

namespace Sys2Proof.Machine

/-- WAIT_UNTIL's body ends in OK, READY or NO_SLOT (R98). -/
theorem State.wait_code (s : State) (op : Byte) (target waker : Word) :
    (s.wait op target waker).code = codeOk ∨ (s.wait op target waker).code = codeReady ∨
      (s.wait op target waker).code = codeNoSlot := by
  rcases s.wait_cases op target waker with ⟨-, h⟩ | ⟨-, -, h⟩ | ⟨-, i, x, -, -, -, h⟩ <;> rw [h]
  · exact .inr (.inl rfl)
  · exact .inr (.inr rfl)
  · exact .inl rfl

theorem State.wait_code_ne_invalidDeadline (s : State) (op : Byte) (target waker : Word) :
    (s.wait op target waker).code ≠ codeInvalidDeadline := by
  rcases s.wait_code op target waker with h | h | h <;> rw [h] <;> decide

theorem State.wait_code_ne_outOfRange (s : State) (op : Byte) (target waker : Word) :
    (s.wait op target waker).code ≠ codeOutOfRange := by
  rcases s.wait_code op target waker with h | h | h <;> rw [h] <;> decide

/-- WAIT_UNTIL's body ends in NO_SLOT exactly when its target is ahead and every slot is PENDING (R108). -/
theorem State.wait_code_eq_noSlot_iff (s : State) (op : Byte) (target waker : Word) :
    (s.wait op target waker).code = codeNoSlot ↔ s.uptime < target ∧ ∀ x ∈ s.slots, x.state = .pending := by
  rcases s.wait_cases op target waker with ⟨reached, h⟩ | ⟨ahead, full, h⟩ | ⟨-, i, x, hx, free, -, h⟩ <;> rw [h]
  · exact iff_of_false (by decide : codeReady ≠ codeNoSlot) fun ⟨ahead, _⟩ => BitVec.not_le.2 ahead reached
  · exact iff_of_true rfl ⟨ahead, full⟩
  · refine iff_of_false (by decide : codeOk ≠ codeNoSlot) fun ⟨_, full⟩ => ?_
    exact nomatch free.symm.trans (full x (List.mem_of_getElem? hx))

/-- An instruction has one next state. -/
theorem eq_of_exec_eq_next {i : Instr} {s t u : State} (h : exec i s = .next t) (hu : exec i s = .next u) : t = u :=
  Host.Outcome.next.inj (h.symm.trans hu)

/-- The commands that report no error end in OK (R104). -/
theorem exec_code_eq_ok {i : Instr} {s t : State}
    (hi : i = .now ∨ i = .elapsed ∨ i = .toDatetime ∨ i = .clockNow ∨ i = .cancel) (h : exec i s = .next t) :
    t.code = codeOk := by
  rcases hi with rfl | rfl | rfl | rfl | rfl
  · exact congrArg State.code (eq_of_exec_eq_next h (exec_now s))
  · exact congrArg State.code (eq_of_exec_eq_next h (exec_elapsed s))
  · exact congrArg State.code (eq_of_exec_eq_next h (execToDatetime_eq s _ rfl))
  · exact congrArg State.code (eq_of_exec_eq_next h (execClockNow_eq s _ rfl))
  · by_cases live : s.Live s.arg0
    · exact congrArg State.code (eq_of_exec_eq_next h (execCancel_of_live live))
    · exact congrArg State.code (eq_of_exec_eq_next h (exec_cancel_of_not_live live))

/-- FROM_DATETIME ends in OK or OUT_OF_RANGE (R91). -/
theorem exec_fromDatetime_code {s t : State} (h : exec .fromDatetime s = .next t) :
    t.code = codeOk ∨ t.code = codeOutOfRange := by
  cases hf : fromFields s.cfg ⟨s.arg0, s.arg1, s.arg2⟩ with
  | none => exact .inr (congrArg State.code (eq_of_exec_eq_next h (exec_fromDatetime_of_none hf)))
  | some r => exact .inl (congrArg State.code (eq_of_exec_eq_next h (exec_fromDatetime_of_some hf)))

/-- WAIT_UNTIL is its body at ARG0 (R98). -/
theorem exec_waitUntil (s : State) : exec .waitUntil s = .next (s.wait 0x06#8 s.arg0 s.arg1) := rfl

/-- WAIT_FOR ends in INVALID_DEADLINE on a sum above MAX64, else as WAIT_UNTIL's body at the sum (R99). -/
theorem exec_waitFor_cases {s t : State} (h : exec .waitFor s = .next t) :
    (max64 < s.uptime.toNat + s.arg0.toNat ∧ t.code = codeInvalidDeadline) ∨
    (s.uptime.toNat + s.arg0.toNat ≤ max64 ∧ t = s.wait 0x07#8 (s.uptime + s.arg0) s.arg1) := by
  rcases Nat.lt_or_ge max64 (s.uptime.toNat + s.arg0.toNat) with overflow | fits
  · exact .inl ⟨overflow, congrArg State.code (eq_of_exec_eq_next h (exec_waitFor_of_overflow overflow))⟩
  · exact .inr ⟨fits, eq_of_exec_eq_next h (exec_waitFor_of_fits fits)⟩

/-- OUT_OF_RANGE is FROM_DATETIME's alone, and every word but the two WAITs otherwise ends in OK or ILLEGAL_COMMAND
(R104). -/
theorem command_code_cases {w : Half} {s t : State} (h : exec (decodeCommand w) s = .next t) :
    t.code = codeOk ∨ t.code = codeIllegalCommand ∨ (w = 4#32 ∧ t.code = codeOutOfRange) ∨
      ((w = 6#32 ∨ w = 7#32) ∧ t.code ≠ codeOutOfRange) := by
  rcases decodeCommand_cases w with ⟨-, hw⟩ | ⟨-, hw⟩ | ⟨-, hw⟩ | ⟨word, hw⟩ | ⟨-, hw⟩ | ⟨word, hw⟩ | ⟨word, hw⟩ |
    ⟨-, hw⟩ | hw <;> rw [hw] at h
  · exact .inl (exec_code_eq_ok (.inl rfl) h)
  · exact .inl (exec_code_eq_ok (.inr (.inl rfl)) h)
  · exact .inl (exec_code_eq_ok (.inr (.inr (.inl rfl))) h)
  · exact (exec_fromDatetime_code h).imp_right fun code => .inr (.inl ⟨word, code⟩)
  · exact .inl (exec_code_eq_ok (.inr (.inr (.inr (.inl rfl)))) h)
  · obtain rfl := eq_of_exec_eq_next h (exec_waitUntil s)
    exact .inr (.inr (.inr ⟨.inl word, s.wait_code_ne_outOfRange _ _ _⟩))
  · refine .inr (.inr (.inr ⟨.inr word, ?_⟩))
    rcases exec_waitFor_cases h with ⟨-, code⟩ | ⟨-, rfl⟩
    · rw [code]
      decide
    · exact s.wait_code_ne_outOfRange _ _ _
  · exact .inl (exec_code_eq_ok (.inr (.inr (.inr (.inr rfl)))) h)
  · exact .inr (.inl (congrArg State.code (eq_of_exec_eq_next h (exec_illegalCommand w s))))

/-- No CMD word but FROM_DATETIME's ends in OUT_OF_RANGE (R107). -/
theorem command_code_ne_outOfRange {w : Half} {s t : State} (hw : w ≠ 4#32)
    (h : exec (decodeCommand w) s = .next t) : t.code ≠ codeOutOfRange := by
  rcases command_code_cases h with code | code | ⟨word, -⟩ | ⟨-, code⟩
  · rw [code]
    decide
  · rw [code]
    decide
  · exact absurd word hw
  · exact code

/-- Settles O26: each cause makes `from_fields` fail; TO_DATETIME and CLOCK_NOW are the commands of words 3 and 5, and
no word but 4 ends in OUT_OF_RANGE. -/
theorem fromDatetimeOutOfRange : Obligations.FromDatetimeOutOfRange := by
  refine ⟨?_, fun s t h => ?_⟩
  · rintro s _ rfl cause
    exact exec_fromDatetime_of_none (fromFields_eq_none cause)
  · rcases h with h | h | ⟨w, hw, h⟩
    · exact command_code_ne_outOfRange (w := 3#32) (by decide) h
    · exact command_code_ne_outOfRange (w := 5#32) (by decide) h
    · exact command_code_ne_outOfRange hw h

/-- A sum that fits is ahead of UPTIME exactly when the duration is not 0 (R99). -/
theorem lt_add_iff_of_fits {u d : Word} (fits : u.toNat + d.toNat ≤ max64) : u < u + d ↔ 0 < d.toNat := by
  rw [BitVec.lt_def, BitVec.toNat_add_of_lt (Nat.lt_of_le_pred (by decide) fits)]
  omega

/-- WAIT_FOR's two errors, each with its exact condition (R106, R108). -/
theorem exec_waitFor_error_iff {s t : State} (h : exec .waitFor s = .next t) :
    (t.code = codeInvalidDeadline ↔ max64 < s.uptime.toNat + s.arg0.toNat) ∧
    (t.code = codeNoSlot ↔ s.uptime.toNat + s.arg0.toNat ≤ max64 ∧ 0 < s.arg0.toNat ∧
      ∀ x ∈ s.slots, x.state = .pending) := by
  rcases exec_waitFor_cases h with ⟨overflow, code⟩ | ⟨fits, rfl⟩
  · rw [code]
    exact ⟨iff_of_true rfl overflow, iff_of_false (by decide) fun ⟨fits, _⟩ => fits.not_gt overflow⟩
  · rw [State.wait_code_eq_noSlot_iff, lt_add_iff_of_fits fits]
    exact ⟨iff_of_false (s.wait_code_ne_invalidDeadline _ _ _) fits.not_gt, (and_iff_right fits).symm⟩

/-- Settles O32: both WAITs end as their common body does, but for WAIT_FOR's overflow; the other words have other
codes. -/
theorem waitErrorsExactlyOnOverflowAndFullFile : Obligations.WaitErrorsExactlyOnOverflowAndFullFile := by
  refine ⟨fun s t => exec_waitFor_error_iff, fun s t h => ?_, fun w s t not_until not_for h => ?_⟩
  · obtain rfl := eq_of_exec_eq_next h (exec_waitUntil s)
    exact ⟨s.wait_code_ne_invalidDeadline _ _ _, s.wait_code_eq_noSlot_iff _ _ _⟩
  · rcases command_code_cases h with code | code | ⟨-, code⟩ | ⟨word, -⟩
    · rw [code]
      decide
    · rw [code]
      decide
    · rw [code]
      decide
    · exact absurd word (not_or.2 ⟨not_until, not_for⟩)

/-- Settles O53: a command's effect is STATUS alone unless its code is OK or READY, which have bit 7 clear. -/
theorem errorsChangeOnlyStatus : Obligations.ErrorsChangeOnlyStatus := by
  intro w s t h error
  rcases (command_effect h).outcome with ok | ready | ⟨-, status_only⟩
  · rw [ok] at error
    exact absurd error (by decide)
  · rw [ready] at error
    exact absurd error (by decide)
  · exact status_only

end Sys2Proof.Machine
end

section
/-! SUPPORT. The accesses that end in BusError (R110), as the complement of those that complete (R41, R44). -/

namespace Sys2Proof.Machine

/-- A load that is misaligned, of another size, or at an offset that is not readable is a bus error (R41). -/
theorem exec_decode_load_of_not_readable {off n : Nat} (h : ¬(AlignedAccess off n ∧ Readable off)) (s : State) :
    exec (decode (.load off n)) s = .fault (.busError off) :=
  (readsCompleteExactlyWhereReadable off n s).2 h

/-- A store that is misaligned, of another size, or outside CMD and the ARG registers is a bus error (R44). -/
theorem exec_decode_store_of_not_completing {off n : Nat}
    (h : ¬(AlignedAccess off n ∧ (off = 0x08 ∧ n = 4 ∨ 0x20 ≤ off ∧ off < 0x38))) (v : Word) (s : State) :
    exec (decode (.store off n v)) s = .fault (.busError off) := by
  by_cases ha : AlignedAccess off n
  · obtain ⟨hcmd, harg⟩ := not_or.1 fun target => h ⟨ha, target⟩
    exact exec_decode_store_of_not_writable hcmd harg v s
  · rw [exec_decode_store_of_not_aligned ha, State.memWrite, if_pos (.inl ha)]
    rfl

/-- Settles O49: each cause is an access outside those that complete. -/
theorem busErrorCauses : Obligations.BusErrorCauses := by
  intro kind off n v s
  refine ⟨fun cause => ⟨?_, ?_⟩, fun cmd => ?_, ?_, fun read_only => ?_, rfl⟩
  · exact exec_decode_load_of_not_readable (by omega) s
  · exact exec_decode_store_of_not_completing (by omega) v s
  · exact exec_decode_load_of_not_readable (by omega) s
  · exact exec_decode_store_of_not_writable (by decide) (by decide) v s
  · exact exec_decode_store_of_not_writable (by omega) (by omega) v s

end Sys2Proof.Machine
end

section
/-! SUPPORT. The decoder against the encoder (R40, R44, R60 to R62, R68): the rows an access can reach, and what each
row decodes to. -/

namespace Sys2Proof

/-- The row ILLEGAL_COMMAND carries exactly the words that name no command (R61, R62). -/
theorem wellFormed_illegalCommand_iff (w : Half) :
    (Instr.illegalCommand w).wellFormed = true ↔ decodeCommand w = .illegalCommand w :=
  decide_eq_true_iff.trans ((illegalWord_iff w).trans (decodeCommand_eq_illegalCommand_iff w).symm)

theorem wellFormed_decodeCommand (w : Half) : (decodeCommand w).wellFormed = true := by
  rcases decodeCommand_cases w with ⟨-, hw⟩ | ⟨-, hw⟩ | ⟨-, hw⟩ | ⟨-, hw⟩ | ⟨-, hw⟩ | ⟨-, hw⟩ | ⟨-, hw⟩ |
    ⟨-, hw⟩ | hw
  on_goal 9 => rw [hw, wellFormed_illegalCommand_iff, hw]
  all_goals rw [hw]; rfl

theorem encode_decodeCommand (w : Half) : encode (decodeCommand w) = .cmdWord w := by
  rcases decodeCommand_cases w with ⟨rfl, -⟩ | ⟨rfl, -⟩ | ⟨rfl, -⟩ | ⟨rfl, -⟩ | ⟨rfl, -⟩ | ⟨rfl, -⟩ | ⟨rfl, -⟩ |
    ⟨rfl, -⟩ | hw
  on_goal 9 => rw [hw]
  all_goals rfl

/-- The rows a load can reach: BAD_ACCESS, the three rows of UPTIME, or any other aligned offset (R40, R41). -/
theorem load_cases (off n : Nat) :
    ¬AlignedAccess off n ∨ (off = 0 ∧ n = 8) ∨ (∃ half, off = halfOffset half ∧ n = 4) ∨
      (n = 8 ∧ off % 8 = 0 ∧ off ≠ 0) ∨ (n = 4 ∧ off % 4 = 0 ∧ off ≠ 0 ∧ off ≠ 4) := by
  by_cases h0 : off = 0 ∧ n = 4
  · exact .inr (.inr (.inl ⟨.lo, h0⟩))
  by_cases h4 : off = 4 ∧ n = 4
  · exact .inr (.inr (.inl ⟨.hi, h4⟩))
  by_cases ha : AlignedAccess off n
  · obtain ⟨rfl | rfl, aligned⟩ := ha <;> omega
  · exact .inl ha

theorem decodeLoad_of_not_aligned {off n : Nat} (ha : ¬AlignedAccess off n) :
    decodeLoad off n = .badAccess .ld off n 0#64 := if_pos ha

theorem decodeLoad_uptime_half (half : HalfSel) : decodeLoad (halfOffset half) 4 = .ld32Uptime half := by
  cases half <;> rfl

theorem decodeLoad_eight {off : Nat} (ha : off % 8 = 0) (h0 : off ≠ 0) : decodeLoad off 8 = .ld64 off := by
  rw [decodeLoad, if_neg (not_not.2 ⟨.inr rfl, ha⟩), if_pos rfl, if_neg h0]

theorem decodeLoad_four {off : Nat} (ha : off % 4 = 0) (h0 : off ≠ 0) (h4 : off ≠ 4) :
    decodeLoad off 4 = .ld32 off := by
  rw [decodeLoad, if_neg (not_not.2 ⟨.inl rfl, ha⟩), if_neg (by decide), if_neg h0, if_neg h4]

theorem wellFormed_decodeLoad (off n : Nat) : (decodeLoad off n).wellFormed = true := by
  rcases load_cases off n with ha | ⟨rfl, rfl⟩ | ⟨half, rfl, rfl⟩ | ⟨rfl, ha, h0⟩ | ⟨rfl, ha, h0, h4⟩
  · rw [decodeLoad_of_not_aligned ha]
    exact decide_eq_true ⟨ha, fun _ => by decide, fun _ => rfl⟩
  · rfl
  · rw [decodeLoad_uptime_half]
    rfl
  · rw [decodeLoad_eight ha h0]
    exact decide_eq_true ⟨ha, h0⟩
  · rw [decodeLoad_four ha h0 h4]
    exact decide_eq_true ⟨ha, h0, h4⟩

theorem encode_decodeLoad (off n : Nat) : encode (decodeLoad off n) = .load off n := by
  rcases load_cases off n with ha | ⟨rfl, rfl⟩ | ⟨half, rfl, rfl⟩ | ⟨rfl, ha, h0⟩ | ⟨rfl, ha, h0, h4⟩
  · rw [decodeLoad_of_not_aligned ha, encode]
  · rfl
  · rw [decodeLoad_uptime_half, encode]
  · rw [decodeLoad_eight ha h0, encode]
  · rw [decodeLoad_four ha h0 h4, encode]

/-- An 8-byte aligned offset of the ARG registers is the offset of one of them (R38). -/
theorem exists_argOffset {off : Nat} (harg : 0x20 ≤ off ∧ off < 0x38) (ha : off % 8 = 0) :
    ∃ k, off = argOffset k :=
  ⟨⟨(off - 0x20) / 8, by omega⟩, by simp only [argOffset]; omega⟩

/-- An aligned 4-byte offset of the ARG registers is one half of one of them (R38, R39). -/
theorem exists_argOffset_add_halfOffset {off : Nat} (harg : 0x20 ≤ off ∧ off < 0x38) (ha : off % 4 = 0) :
    ∃ k half, off = argOffset k + halfOffset half := by
  by_cases h8 : off % 8 = 0
  · obtain ⟨k, hk⟩ := exists_argOffset harg h8
    exact ⟨k, .lo, hk⟩
  · obtain ⟨k, hk⟩ := exists_argOffset (off := off - 4) (by omega) (by omega)
    exact ⟨k, .hi, by rw [← hk, halfOffset]; omega⟩

/-- The rows a store can reach: BAD_ACCESS, CMD, an ARG register or half, or ST at any other offset (R40, R44). -/
theorem store_cases (off n : Nat) :
    ¬AlignedAccess off n ∨ (off = 0x08 ∧ n = 4) ∨ (∃ k, off = argOffset k ∧ n = 8) ∨
      (∃ k half, off = argOffset k + halfOffset half ∧ n = 4) ∨
      (AlignedAccess off n ∧ ¬(off = 0x08 ∧ n = 4) ∧ ¬(0x20 ≤ off ∧ off < 0x38)) := by
  by_cases ha : AlignedAccess off n
  case neg => exact .inl ha
  by_cases hcmd : off = 0x08 ∧ n = 4
  · exact .inr (.inl hcmd)
  by_cases harg : 0x20 ≤ off ∧ off < 0x38
  case neg => exact .inr (.inr (.inr (.inr ⟨ha, hcmd, harg⟩)))
  obtain ⟨rfl | rfl, aligned⟩ := ha
  · obtain ⟨k, half, h⟩ := exists_argOffset_add_halfOffset harg aligned
    exact .inr (.inr (.inr (.inl ⟨k, half, h, rfl⟩)))
  · obtain ⟨k, h⟩ := exists_argOffset harg aligned
    exact .inr (.inr (.inl ⟨k, h, rfl⟩))

theorem decodeStore_of_not_aligned {off n : Nat} (ha : ¬AlignedAccess off n) (v : Word) :
    decodeStore off n v = .badAccess .st off n (storeData n v) := if_pos ha

theorem decodeStore_arg (k : Fin 3) (v : Word) : decodeStore (argOffset k) 8 v = .st64Arg k v := by
  fin_cases k <;> rfl

theorem decodeStore_argHalf (k : Fin 3) (half : HalfSel) (v : Word) :
    decodeStore (argOffset k + halfOffset half) 4 v = .st32Arg k half (v.setWidth 32) := by
  cases half <;> fin_cases k <;> rfl

theorem decodeStore_other {off n : Nat} (ha : AlignedAccess off n) (hcmd : ¬(off = 0x08 ∧ n = 4))
    (harg : ¬(0x20 ≤ off ∧ off < 0x38)) (v : Word) :
    decodeStore off n v = .stOther off n (storeData n v) := by
  rw [decodeStore, if_neg (not_not.2 ha), if_neg hcmd, dif_neg harg]

theorem wellFormed_decodeStore (off n : Nat) (v : Word) : (decodeStore off n v).wellFormed = true := by
  rcases store_cases off n with ha | ⟨rfl, rfl⟩ | ⟨k, rfl, rfl⟩ | ⟨k, half, rfl, rfl⟩ | ⟨ha, hcmd, harg⟩
  · rw [decodeStore_of_not_aligned ha]
    exact decide_eq_true ⟨ha, fitsSize_storeData n v, nofun⟩
  · rfl
  · rw [decodeStore_arg]
    rfl
  · rw [decodeStore_argHalf]
    rfl
  · rw [decodeStore_other ha hcmd harg]
    exact decide_eq_true ⟨ha, hcmd, harg, fitsSize_storeData n v⟩

/-- The 32 bits of a 4-byte store are all of its data (R68). -/
theorem setWidth_setWidth_of_fits {v : Word} (h : FitsSize 4 v) : (v.setWidth 32).setWidth 64 = v :=
  storeData_of_fits 4 v h

theorem encode_decodeStore {off n : Nat} {v : Word} (fits : FitsSize n v) :
    encode (decodeStore off n v) = .store off n v := by
  rcases store_cases off n with ha | ⟨rfl, rfl⟩ | ⟨k, rfl, rfl⟩ | ⟨k, half, rfl, rfl⟩ | ⟨ha, hcmd, harg⟩
  · rw [decodeStore_of_not_aligned ha, storeData_of_fits n v fits, encode]
  · exact congrArg (Transaction.store 0x08 4) (setWidth_setWidth_of_fits fits)
  · rw [decodeStore_arg, encode]
  · rw [decodeStore_argHalf, encode, setWidth_setWidth_of_fits fits]
  · rw [decodeStore_other ha hcmd harg, storeData_of_fits n v fits, encode]

/-- A half carried in 64 bits of store data comes back whole. -/
theorem setWidth_setWidth_half (v : Half) : (v.setWidth 64).setWidth 32 = v := by
  rw [BitVec.setWidth_setWidth_of_le v (by decide), BitVec.setWidth_eq]

/-- Settles O3: each row's transaction is the one that the equations of the decoder above read back. -/
theorem decodeEncodeAgree : Obligations.DecodeEncodeAgree := by
  intro i wf
  cases i with
  | now => rfl
  | elapsed => rfl
  | toDatetime => rfl
  | fromDatetime => rfl
  | clockNow => rfl
  | waitUntil => rfl
  | waitFor => rfl
  | cancel => rfl
  | illegalCommand w => exact (wellFormed_illegalCommand_iff w).1 wf
  | tick raw => rfl
  | ld64Uptime => rfl
  | ld32Uptime half => exact decodeLoad_uptime_half half
  | ld64 off =>
    obtain ⟨ha, h0⟩ := of_decide_eq_true wf
    exact decodeLoad_eight ha h0
  | ld32 off =>
    obtain ⟨ha, h0, h4⟩ := of_decide_eq_true wf
    exact decodeLoad_four ha h0 h4
  | st64Arg k v => exact decodeStore_arg k v
  | st32Arg k half v => rw [encode, decode, decodeStore_argHalf, setWidth_setWidth_half]
  | st32Cmd w => exact congrArg Instr.st32Cmd (setWidth_setWidth_half w)
  | stOther off n v =>
    obtain ⟨ha, hcmd, harg, fits⟩ := of_decide_eq_true wf
    rw [encode, decode, decodeStore_other ha hcmd harg, storeData_of_fits n v fits]
  | badAccess kind off n v =>
    obtain ⟨ha, fits, load_data⟩ := of_decide_eq_true wf
    cases kind with
    | ld => rw [encode, decode, decodeLoad_of_not_aligned ha, load_data rfl]
    | st => rw [encode, decode, decodeStore_of_not_aligned ha, storeData_of_fits n v fits]

/-- Settles O4: format by format; only a store has data that a legal transaction restricts. -/
theorem encodeDecodeAgree : Obligations.EncodeDecodeAgree := by
  intro t legal
  cases t with
  | cmdWord w => exact encode_decodeCommand w
  | tickEvent raw => rfl
  | load off n => exact encode_decodeLoad off n
  | store off n v => exact encode_decodeStore (of_decide_eq_true legal)

/-- Settles O5: format by format. -/
theorem decodedInstructionsAreWellFormed : Obligations.DecodedInstructionsAreWellFormed := by
  intro t
  cases t with
  | cmdWord w => exact wellFormed_decodeCommand w
  | tickEvent raw => rfl
  | load off n => exact wellFormed_decodeLoad off n
  | store off n v => exact wellFormed_decodeStore off n v

end Sys2Proof
end

section
/-! SUPPORT. The calendar's own inferences (R84, R86), the bound on produced years (R87), and the two round trips
between ticks and dates (R87, R89). -/

namespace Sys2Proof.Machine

/-- Settles O20: the closed-form search finds R86's date. -/
theorem civilIsLargestYearAndMonth : Obligations.CivilIsLargestYearAndMonth := isCivil_civil

/-- Settles O21: base and recurrence of the closed formula. -/
theorem daysBeforeYearIsSumOfYears : Obligations.DaysBeforeYearIsSumOfYears := ⟨rfl, daysBeforeYear_succ⟩

/-- The first year that no date of the block reaches: it begins after the last of 2^65 seconds (R87). -/
theorem daysBeforeYear_unreached : daysBeforeYear 1169108100478 = 427007964669309 := rfl

/-- Settles O29: a later year would begin after the largest day number. -/
theorem producedYearsAreBounded : Obligations.ProducedYearsAreBounded := by
  intro c u _
  rw [(toFields_date c u).1]
  obtain ⟨-, begun, -⟩ := civil_spec (secondsAt c u / 86400)
  have largest := secondsAt_lt c u
  have unreached := daysBeforeYear_unreached
  by_contra later
  have := daysBeforeYear_mono (show 1169108100478 ≤ (civil (secondsAt c u / 86400)).1 by omega)
  omega

/-- The date words of an uptime value count the seconds they were made from (R87, R89). -/
theorem secondsOf_toFields (c : Config) (u : Word) : secondsOf (toFields c u) = secondsAt c u := by
  obtain ⟨year, month, day⟩ := toFields_date c u
  obtain ⟨hour, minute, second, -⟩ := toFields_time c u
  obtain ⟨-, -, -, -, -, -, days⟩ := civil_spec (secondsAt c u / 86400)
  rw [secondsOf, year, month, day, days, hour, minute, second]
  omega

/-- `to_fields` gives valid dates (R87, R88). -/
theorem validDate_toFields {c : Config} (hf : c.freq ≠ 0#64) (u : Word) : ValidDate c (toFields c u) := by
  obtain ⟨year, month, day⟩ := toFields_date c u
  obtain ⟨hour, minute, second, reserved⟩ := toFields_time c u
  obtain ⟨from_1970, -, month_pos, month_le, day_pos, day_le, -⟩ := civil_spec (secondsAt c u / 86400)
  have freq_pos : 0 < c.freq.toNat := Nat.pos_of_ne_zero fun h => hf (BitVec.eq_of_toNat_eq h)
  rw [ValidDate, year, month, day, hour, minute, second, toFields_subsec]
  refine ⟨from_1970, month_pos, month_le, day_pos, day_le, ?_, ?_, ?_, reserved, Nat.mod_lt _ freq_pos⟩ <;> omega

/-- The date words of an uptime value count its ticks: whole seconds since the epoch and SUBSEC are the quotient and
the remainder by F (R87, R89). -/
theorem ticksOf_toFields (c : Config) (u : Word) : ticksOf c (toFields c u) = u.toNat := by
  rw [ticksOf, secondsOf_toFields, toFields_subsec, secondsAt, Nat.add_sub_cancel_left, Nat.div_add_mod']

/-- Settles O27: the words of `to_fields` pass every check of `from_fields` and count the ticks they came from. -/
theorem ticksSurviveDateRoundTrip : Obligations.TicksSurviveDateRoundTrip := by
  intro c u hf
  have reached : c.epoch.toNat ≤ secondsOf (toFields c u) := by
    rw [secondsOf_toFields]
    exact Nat.le_add_right _ _
  have fits : ticksOf c (toFields c u) ≤ max64 := by
    rw [ticksOf_toFields]
    exact Nat.le_pred_of_lt u.isLt
  rw [fromFields_eq_some (validDate_toFields hf u) reached fits, ticksOf_toFields, BitVec.ofNat_toNat,
    BitVec.setWidth_eq]

/-- What a conversion to ticks has checked, and its value (R88, R89). -/
theorem fromFields_some {c : Config} {d : DateWords} {u : Word} (h : fromFields c d = some u) :
    ValidDate c d ∧ c.epoch.toNat ≤ secondsOf d ∧ u.toNat = ticksOf c d := by
  rw [fromFields] at h
  split_ifs at h with valid early late
  obtain rfl := Option.some.inj h
  exact ⟨valid, not_lt.1 early,
    (BitVec.toNat_ofNat _ _).trans (Nat.mod_eq_of_lt (Nat.lt_of_le_pred (by decide) (not_lt.1 late)))⟩

/-- The ticks of a date divide by F into its seconds and its SUBSEC (R87, R89). -/
theorem secondsAt_of_ticksOf {c : Config} {d : DateWords} {u : Word} (subsec : d.dt2.toNat < c.freq.toNat)
    (reached : c.epoch.toNat ≤ secondsOf d) (hu : u.toNat = ticksOf c d) :
    secondsAt c u = secondsOf d ∧ u.toNat % c.freq.toNat = d.dt2.toNat := by
  obtain ⟨quotient, remainder⟩ :
      u.toNat / c.freq.toNat = secondsOf d - c.epoch.toNat ∧ u.toNat % c.freq.toNat = d.dt2.toNat :=
    (Nat.div_mod_unique (Nat.zero_lt_of_lt subsec)).2 ⟨by rw [hu, ticksOf, Nat.mul_comm, Nat.add_comm], subsec⟩
  exact ⟨by rw [secondsAt, quotient, Nat.add_sub_cancel' reached], remainder⟩

/-- The seconds of a valid date divide by a day into its day number and its second of the day (R89). -/
theorem secondsOf_div_mod {d : DateWords} (hour : dtHour d ≤ 23) (minute : dtMinute d ≤ 59)
    (second : dtSecond d ≤ 59) :
    secondsOf d / 86400 = daysOf (dtYear d) (dtMonth d) (dtDay d) ∧
      secondsOf d % 86400 = dtHour d * 3600 + dtMinute d * 60 + dtSecond d := by
  rw [secondsOf]
  omega

/-- A date is its three words. -/
theorem dateWords_ext {d d' : DateWords} (dt0 : d.dt0 = d'.dt0) (dt1 : d.dt1 = d'.dt1) (dt2 : d.dt2 = d'.dt2) :
    d = d' := by
  cases d
  cases d'
  exact (DateWords.mk.injEq ..).mpr ⟨dt0, dt1, dt2⟩

/-- Settles O28: the divisions of `to_fields` undo the sums of `from_fields`, and each word is made of its fields. -/
theorem datesSurviveTickRoundTrip : Obligations.DatesSurviveTickRoundTrip := by
  intro c d u h
  obtain ⟨⟨from_1970, -, month_le, day_pos, day_le, hour, minute, second, reserved, subsec⟩, reached, hu⟩ :=
    fromFields_some h
  obtain ⟨seconds, ticks⟩ := secondsAt_of_ticksOf subsec reached hu
  obtain ⟨days, time⟩ := secondsOf_div_mod hour minute second
  have dt0 : (toFields c u).dt0 = d.dt0 := by
    rw [toFields_dt0, seconds, days, civil_daysOf _ _ _ from_1970 month_le day_pos day_le, packDate_fields]
  have dt1 : (toFields c u).dt1 = d.dt1 := by
    rw [toFields_dt1, seconds, time, packTime_fields d hour minute second reserved]
  have dt2 : (toFields c u).dt2 = d.dt2 := BitVec.eq_of_toNat_eq ((toFields_subsec c u).trans ticks)
  exact dateWords_ext dt0 dt1 dt2

end Sys2Proof.Machine
end

section
/-! SUPPORT. What an instruction leaves unchanged (R17, R18, R20 to R23, R33): field by field, from what it can do. -/

namespace Sys2Proof.Machine

/-- A command's effect keeps time, the configuration, the ARG registers and WAKE_LOG. -/
theorem CommandEffect.frame {s t : State} (h : CommandEffect s t) :
    t.cfg = s.cfg ∧ t.uptime = s.uptime ∧ t.lastRaw = s.lastRaw ∧ (∀ k, t.arg k = s.arg k) ∧ t.wakeLog = s.wakeLog := by
  rw [h.shape]
  exact ⟨rfl, rfl, rfl, fun k => by fin_cases k <;> rfl, rfl⟩

/-- TICK does not write the ARG registers (R71). -/
theorem State.tick_arg (s : State) (raw : Word) (k : Fin 3) : (s.advance raw).fire.arg k = s.arg k := by
  fin_cases k <;> rfl

theorem State.reply_arg (s : State) (r : Reply) (k : Fin 3) : (s.reply r).arg k = s.arg k := by
  fin_cases k <;> rfl

/-- Settles O57: a TICK is `advance` and `fire()`, which write these four fields. -/
theorem tickLeavesRegistersAlone : Obligations.TickLeavesRegistersAlone := fun raw s => ⟨_, exec_tick raw s, rfl⟩

/-- Settles O54: the next states of `exec` other than an ARG store's keep the ARG registers. -/
theorem onlyArgStoresWriteArgs : Obligations.OnlyArgStoresWriteArgs := by
  intro i s t h not_word not_half k
  rcases exec_next h with ⟨raw, -, rfl⟩ | ⟨-, ⟨r, rfl⟩ | command⟩ | ⟨j, v, ⟨v64, hi⟩ | ⟨half, v32, hi⟩, -⟩
  · exact s.tick_arg raw k
  · exact s.reply_arg r k
  · obtain ⟨-, -, -, args, -⟩ := command.frame
    exact args k
  · exact absurd hi (not_word j v64)
  · exact absurd hi (not_half j half v32)

/-- Settles O55: among the next states of `exec` only a TICK's advances time, and `fire()` appends to WAKE_LOG. -/
theorem onlyTickAdvancesTime : Obligations.OnlyTickAdvancesTime := by
  intro i s t h
  rcases exec_next h with ⟨raw, hi, rfl⟩ | ⟨-, ⟨r, rfl⟩ | command⟩ | ⟨k, v, -, rfl⟩
  · exact ⟨rfl, List.prefix_append _ _, fun not_tick => absurd hi (not_tick raw)⟩
  · exact ⟨rfl, List.prefix_rfl, fun _ => ⟨rfl, rfl, rfl⟩⟩
  · obtain ⟨cfg, uptime, lastRaw, -, wakeLog⟩ := command.frame
    exact ⟨cfg, wakeLog ▸ List.prefix_rfl, fun _ => ⟨uptime, lastRaw, wakeLog⟩⟩
  · rw [State.setArg_wakeLog]
    exact ⟨s.setArg_cfg k v, List.prefix_rfl, fun _ => ⟨s.setArg_uptime k v, s.setArg_lastRaw k v, rfl⟩⟩

/-- What an instruction that is no command and no CMD write can do: TICK, a read, or an ARG write (R22, R23). -/
theorem exec_next_of_not_command {i : Instr} {s t : State} (h : exec i s = .next t)
    (not_command : ∀ w, i ≠ decodeCommand w) (not_illegal : ∀ w, i ≠ .illegalCommand w)
    (not_cmdWrite : ∀ w, i ≠ .st32Cmd w) :
    (∃ raw, i = .tick raw ∧ t = (s.advance raw).fire) ∨ (∃ r, t = s.reply r) ∨ ∃ k v, t = s.setArg k v := by
  cases i with
  | tick raw => exact .inl ⟨raw, rfl, eq_of_exec_eq_next h (exec_tick raw s)⟩
  | ld64Uptime => exact .inr (.inl (busLoad_next (off := 0x00) (n := 8) h))
  | ld32Uptime half => exact .inr (.inl (busLoad_next (off := halfOffset half) (n := 4) h))
  | ld64 off => exact .inr (.inl (busLoad_next (off := off) (n := 8) h))
  | ld32 off => exact .inr (.inl (busLoad_next (off := off) (n := 4) h))
  | st64Arg k v => exact .inr (.inr ⟨k, _, (Host.Outcome.next.inj h).symm⟩)
  | st32Arg k half v => exact .inr (.inr ⟨k, _, (Host.Outcome.next.inj h).symm⟩)
  | stOther off n v => exact nomatch h
  | badAccess kind off n v => exact nomatch h
  | now => exact absurd rfl (not_command 1#32)
  | elapsed => exact absurd rfl (not_command 2#32)
  | toDatetime => exact absurd rfl (not_command 3#32)
  | fromDatetime => exact absurd rfl (not_command 4#32)
  | clockNow => exact absurd rfl (not_command 5#32)
  | waitUntil => exact absurd rfl (not_command 6#32)
  | waitFor => exact absurd rfl (not_command 7#32)
  | cancel => exact absurd rfl (not_command 8#32)
  | illegalCommand w => exact absurd rfl (not_illegal w)
  | st32Cmd w => exact absurd rfl (not_cmdWrite w)

theorem State.setArg_statusWord (s : State) (k : Fin 3) (v : Word) : (s.setArg k v).statusWord = s.statusWord := by
  fin_cases k <;> rfl

/-- Settles O56: a TICK, a read and an ARG write keep these registers, and the last two the slots. -/
theorem onlyCommandsWriteResultsAndStatus : Obligations.OnlyCommandsWriteResultsAndStatus := by
  intro i s t h not_command not_illegal not_cmdWrite
  rcases exec_next_of_not_command h not_command not_illegal not_cmdWrite with ⟨raw, hi, rfl⟩ | ⟨r, rfl⟩ | ⟨k, v, rfl⟩
  · exact ⟨rfl, rfl, rfl, rfl, rfl, fun not_tick => absurd hi (not_tick raw)⟩
  · exact ⟨rfl, rfl, rfl, rfl, rfl, fun _ => rfl⟩
  · exact ⟨s.setArg_res0 k v, s.setArg_res1 k v, s.setArg_res2 k v, s.setArg_res3 k v, s.setArg_statusWord k v,
      fun _ => s.setArg_slots k v⟩

end Sys2Proof.Machine
end

section
/-! SUPPORT. The invariant: at reset, through every instruction and through every step (R20, R27, R29, R65, R66). -/

namespace Sys2Proof.Machine

/-- What the invariant asks of a slot: a PENDING one lies ahead of UPTIME, and its generation is not 0 (R29, R93). -/
abbrev Slot.Ahead (u : Word) (x : Slot) : Prop := x.state = .pending → u < x.deadline ∧ x.gen ≠ 0#48

/-- The reset state meets the invariant: all slots FREE, LAST_RAW the draw or 0 (R35). -/
theorem State.resetOf_inv {c : Config} (hc : c.legal = true) : (State.resetOf c).Inv := by
  obtain ⟨-, -, -, -, -, -, raw_lt, -⟩ := c.legal_iff.1 hc
  refine ⟨hc, State.resetOf_slots_length c, ?_, fun x hx pending => ?_, nofun,
    show codeOk ∈ statusCodes by decide⟩
  · rw [State.resetOf_lastRaw]
    split
    · next delta => exact raw_lt delta
    · exact Nat.two_pow_pos _
  · rw [State.eq_empty_of_mem_resetOf_slots hx] at pending
    exact nomatch pending

/-- Settles O58: the default configuration is a legal one. -/
theorem invHoldsAtReset : Obligations.InvHoldsAtReset :=
  ⟨State.resetOf_inv (by decide), fun _ => State.resetOf_inv⟩

/-- A TICK leaves LAST_RAW within W bits (R20). -/
theorem State.nextLastRaw_lt {s : State} (h : s.lastRaw.toNat < 2 ^ s.cfg.rawWidth) (raw : Word) :
    (s.nextLastRaw raw).toNat < 2 ^ s.cfg.rawWidth := by
  unfold State.nextLastRaw
  split
  · exact h
  · rw [lowBits_toNat]
    exact Nat.mod_lt _ (Nat.two_pow_pos _)

/-- `fire()` frees every slot its UPTIME has reached, so those still PENDING lie ahead (R29, R94). -/
theorem Slot.fired_ahead {u u' : Word} {x : Slot} (h : x.Ahead u) : (x.fired u').Ahead u' := by
  intro pending
  obtain ⟨same, ahead⟩ := Slot.fired_pending pending
  rw [same] at pending ⊢
  exact ⟨ahead, (h pending).2⟩

/-- Every WAKE of `fire()` carries the generation of a PENDING slot, which is not 0 (R66, R93). -/
theorem handleGen_ne_zero_of_mem_wakesFrom {u u' : Word} {l : List Slot} (h : ∀ x ∈ l, x.Ahead u) {e : Wake}
    (he : e ∈ wakesFrom u' 0 l) : handleGen e.handle ≠ 0#48 := by
  obtain ⟨j, x, hx, ⟨pending, -⟩, rfl⟩ := mem_wakesFrom he
  rw [handleGen_handleOf]
  exact (h x (List.mem_of_getElem? hx) pending).2

theorem State.Inv.tick {s : State} (h : s.Inv) (raw : Word) : (s.advance raw).fire.Inv := by
  obtain ⟨legal, length, lastRaw, ahead, wakes, code⟩ := h
  refine ⟨legal, (List.length_map ..).trans length, State.nextLastRaw_lt lastRaw raw, fun x hx => ?_, fun e he => ?_,
    code⟩
  · obtain ⟨y, hy, rfl⟩ := List.mem_map.1 hx
    exact Slot.fired_ahead (ahead y hy)
  · rcases List.mem_append.1 he with he | he
    · exact wakes e he
    · exact handleGen_ne_zero_of_mem_wakesFrom ahead he

/-- A command keeps the slot file's length and every PENDING slot ahead: a registration's target is ahead and its
generation not 0, and a released slot is FREE (R29, R93). -/
theorem SlotChange.keeps_ahead {s : State} {l : List Slot} (h : SlotChange s l)
    (ahead : ∀ x ∈ s.slots, x.Ahead s.uptime) : l.length = s.slots.length ∧ ∀ x ∈ l, x.Ahead s.uptime := by
  cases h with
  | same => exact ⟨rfl, ahead⟩
  | register i x target waker _ _ target_ahead =>
    refine ⟨List.length_set, fun y hy => ?_⟩
    rcases List.mem_or_eq_of_mem_set hy with hy | rfl
    · exact ahead y hy
    · exact fun _ => ⟨target_ahead, nextGen_ne_zero _⟩
  | release i =>
    refine ⟨List.length_set, fun y hy => ?_⟩
    rcases List.mem_or_eq_of_mem_set hy with hy | rfl
    · exact ahead y hy
    · exact nofun

theorem State.Inv.command {s t : State} (h : s.Inv) (command : CommandEffect s t) : t.Inv := by
  obtain ⟨legal, length, lastRaw, ahead, wakes, -⟩ := h
  obtain ⟨cfg_eq, uptime_eq, lastRaw_eq, -, wakeLog_eq⟩ := command.frame
  obtain ⟨length_eq, ahead'⟩ := command.slotChange.keeps_ahead ahead
  rw [State.Inv, cfg_eq, uptime_eq, lastRaw_eq, wakeLog_eq, length_eq]
  exact ⟨legal, length, lastRaw, ahead', wakes, command.code_mem⟩

theorem State.Inv.setArg {s : State} (h : s.Inv) (k : Fin 3) (v : Word) : (s.setArg k v).Inv := by
  fin_cases k <;> exact h

/-- Every instruction keeps the invariant. -/
theorem State.Inv.exec {i : Instr} {s t : State} (h : s.Inv) (hexec : exec i s = .next t) : t.Inv := by
  rcases exec_next hexec with ⟨raw, -, rfl⟩ | ⟨-, ⟨r, rfl⟩ | command⟩ | ⟨k, v, -, rfl⟩
  · exact h.tick raw
  · exact h
  · exact h.command command
  · exact h.setArg k v

/-- Settles O59: the invariant does not speak of the arrivals, every instruction keeps it, and a reset sets it up. -/
theorem stepKeepsInv : Obligations.StepKeepsInv := by
  intro s t h hstep
  obtain ⟨-, ⟨-, rfl⟩ | ⟨e, rest, -, hexec⟩ | ⟨c, rest, -, hc, rfl⟩⟩ := step_next hstep
  · exact h
  · exact State.Inv.exec (s := { s with inputs := rest }) h hexec
  · exact State.resetOf_inv hc

/-- Settles O60: idling changes nothing, and no instruction decreases UPTIME or shortens WAKE_LOG. -/
theorem uptimeNeverDecreases : Obligations.UptimeNeverDecreases := by
  intro s t no_reset hstep
  obtain ⟨-, ⟨-, rfl⟩ | ⟨e, rest, -, hexec⟩ | ⟨c, rest, hi, -⟩⟩ := step_next hstep
  · exact ⟨le_rfl, List.prefix_rfl⟩
  · obtain ⟨-, wakeLog, -⟩ := onlyTickAdvancesTime _ _ _ hexec
    have uptime := exec_uptime_le hexec
    exact ⟨uptime, wakeLog⟩
  · exact absurd hi (no_reset c rest)

end Sys2Proof.Machine
end

section
/-! SUPPORT. A step by its next arrival (R7, R49), and runs over TICKs alone (R80). -/

namespace Sys2Proof.Machine

/-- Settles O6: in a legally configured machine step takes the arrival, and a transaction is decoded and executed. -/
theorem stepRunsDecodedTransaction : Obligations.StepRunsDecodedTransaction := by
  intro s t rest legal hi
  rw [step, takeNext, if_pos legal, hi]
  rfl

/-- Settles O7: the branches of `takeNext` and of a reset. -/
theorem stepIdlesOrRefuses : Obligations.StepIdlesOrRefuses := by
  refine fun s => ⟨fun legal hi => ?_, fun illegal => ?_, fun c rest legal illegal hi => ?_⟩
  · rw [step, takeNext, if_pos legal, hi]
  · exact if_neg (Bool.eq_false_iff.1 illegal)
  · rw [step_of_reset legal hi, resetStep_of_legal_eq_false illegal]

/-- A run over TICKs goes on from the first TICK's state. -/
theorem run_tickEvents_cons {s t : State} {raw : Word} {raws : List Word} (legal : s.cfg.legal = true)
    (hi : s.inputs = tickEvents (raw :: raws)) (ht : exec (.tick raw) { s with inputs := tickEvents raws } = .next t) :
    core.run (raw :: raws).length s = core.run raws.length t :=
  run_succ_of_step ((stepRunsDecodedTransaction s _ _ legal hi).trans ht)

theorem min_toNat_max64 (u : Word) : min u.toNat max64 = u.toNat :=
  Nat.min_eq_left (Nat.le_pred_of_lt u.isLt)

/-- Adding to a saturated sum and saturating again is saturating once (R79). -/
theorem min_saturatingAdd_add (u : Word) (a b : Nat) :
    min ((saturatingAdd u a).toNat + b) max64 = min (u.toNat + (a + b)) max64 := by
  rw [saturatingAdd_toNat]
  omega

/-- Settles O17: by induction on the TICKs, each of which adds P. -/
theorem periodTickCountLaw : Obligations.PeriodTickCountLaw := by
  intro s raws legal period hi
  induction raws generalizing s with
  | nil =>
    refine ⟨s, rfl, ?_⟩
    rw [List.length_nil, Nat.zero_mul, Nat.add_zero, min_toNat_max64]
  | cons raw raws ih =>
    have first := exec_tick_of_period (s := { s with inputs := tickEvents raws }) period raw
    rw [run_tickEvents_cons legal hi first, List.length_cons, Nat.succ_mul,
      Nat.add_comm (_ * _), ← min_saturatingAdd_add]
    exact ih _ legal period rfl

/-- Settles O18: by induction on the TICKs, each of which adds its modular delta and becomes the reference point. -/
theorem deltaTickCountLaw : Obligations.DeltaTickCountLaw := by
  intro s raws legal delta hi fits
  obtain ⟨-, -, -, width_le, -⟩ := s.cfg.legal_iff.1 legal
  induction raws generalizing s with
  | nil =>
    refine ⟨s, rfl, ?_⟩
    rw [deltaSum, Nat.add_zero, min_toNat_max64]
  | cons raw raws ih =>
    obtain ⟨raw_fits, raws_fit⟩ := List.forall_mem_cons.1 fits
    have first := exec_tick_of_delta (s := { s with inputs := tickEvents raws }) delta raw_fits
    rw [run_tickEvents_cons legal hi first, deltaSum,
      ← State.tickIncrement_of_delta delta width_le raw, Int.toNat_natCast, ← min_saturatingAdd_add]
    exact ih _ legal delta rfl raws_fit width_le

end Sys2Proof.Machine
end

section
/-! SUPPORT. One registration through a TICK (R94, R95), and a TICK below every deadline (R32). -/

namespace Sys2Proof.Machine

/-- `fire()` adds one WAKE with a slot's handle if the slot is due, and none otherwise (R94). -/
theorem State.fire_countP_handle {s : State} {i : Nat} {x : Slot} (hl : s.slots.length ≤ 65536)
    (hx : s.slots[i]? = some x) : s.fire.wakeLog.countP (·.handle = handleOf x.gen i) =
      s.wakeLog.countP (·.handle = handleOf x.gen i) + if x.due s.uptime then 1 else 0 := by
  have fired := count_wakes s.uptime s.slots 0 i x (by omega) hx
  rw [Nat.zero_add] at fired
  rw [State.fire_wakeLog, List.countP_append, fired]

/-- The invariant's slot file has at most 2^16 slots (R6, R27). -/
theorem State.Inv.slots_length_le {s : State} (h : s.Inv) : s.slots.length ≤ 65536 := by
  obtain ⟨legal, length, -⟩ := h
  obtain ⟨-, -, -, -, -, slots_le, -⟩ := s.cfg.legal_iff.1 legal
  exact length.trans_le slots_le

/-- Settles O35: the TICK's `fire()` sees the slot due or not due, and counts its handle once or not at all. -/
theorem registrationWakesExactlyOnce : Obligations.RegistrationWakesExactlyOnce := by
  intro raw s t i x h hx pending ht
  obtain rfl := eq_of_exec_eq_next ht (exec_tick raw s)
  have count := State.fire_countP_handle (s := s.advance raw) h.slots_length_le hx
  have slot := State.fire_slot (s := s.advance raw) hx
  refine ⟨fun reached => ?_, fun ahead => ?_⟩
  · have due : x.due (s.advance raw).uptime := ⟨pending, reached⟩
    rw [if_pos due] at count
    exact ⟨count, by rw [slot, Slot.fired_of_due due, Slot.released_state]⟩
  · have not_due : ¬x.due (s.advance raw).uptime := fun due => (not_le.2 ahead) due.2
    rw [if_neg not_due] at count
    exact ⟨count, slot.trans (Slot.fired_of_not_due not_due)⟩

/-- `fire()` with no slot due changes no slot and emits nothing (R32, R94). -/
theorem State.fire_of_none_due {s : State} (h : ∀ x ∈ s.slots, ¬x.due s.uptime) :
    s.fire.slots = s.slots ∧ s.fire.wakeLog = s.wakeLog := by
  refine ⟨(List.map_congr_left fun x hx => Slot.fired_of_not_due (h x hx)).trans (List.map_id' _), ?_⟩
  have silent : wakesFrom s.uptime 0 s.slots = [] := List.eq_nil_iff_forall_not_mem.2 fun e he => by
    obtain ⟨j, x, hx, due, -⟩ := mem_wakesFrom he
    exact h x (List.mem_of_getElem? hx) due
  rw [State.fire_wakeLog, silent, List.append_nil]

/-- Settles O36: below every PENDING deadline no slot is due. -/
theorem tickBelowMinimumDeadlineFiresNothing : Obligations.TickBelowMinimumDeadlineFiresNothing := by
  intro raw s t ht below
  obtain rfl := eq_of_exec_eq_next ht (exec_tick raw s)
  exact State.fire_of_none_due (s := s.advance raw) fun x hx due => (below x hx due.1).not_ge due.2

end Sys2Proof.Machine
end

section
/-! SUPPORT. CANCEL against the registration that its handle names (R93, R98 to R100, R113). -/

namespace Sys2Proof.Machine

/-- Settles O38: the first CANCEL leaves its slot FREE or found no live handle, so the second finds none. -/
theorem cancelIsIdempotent : Obligations.CancelIsIdempotent := by
  intro s t ht
  suffices ¬t.Live t.arg0 ∧ t.wakeLog = s.wakeLog by
    obtain ⟨not_live, wakeLog⟩ := this
    exact ⟨_, exec_cancel_of_not_live not_live, rfl, rfl, wakeLog⟩
  by_cases live : s.Live s.arg0
  · obtain rfl := eq_of_exec_eq_next ht (execCancel_of_live live)
    obtain ⟨-, pending, -⟩ := live
    have inFile := (List.getElem?_eq_some_iff.1 (State.getElem?_of_pending pending)).1
    have freed := congrArg Slot.state (State.release_slot inFile)
    refine ⟨fun still => ?_, rfl⟩
    obtain ⟨-, still_pending, -⟩ := still
    exact nomatch freed.symm.trans still_pending
  · obtain rfl := eq_of_exec_eq_next ht (exec_cancel_of_not_live live)
    exact ⟨live, rfl⟩

/-- A PENDING slot of a state that meets the invariant is the one its handle names (R66). -/
theorem State.Inv.live_handleOf {s : State} (h : s.Inv) {i : Nat} {x : Slot} (hx : s.slots[i]? = some x)
    (pending : x.state = .pending) : handleSlot (handleOf x.gen i) = i ∧ s.Live (handleOf x.gen i) := by
  have inFile : i < s.slots.length := (List.getElem?_eq_some_iff.1 hx).1
  have slot : handleSlot (handleOf x.gen i) = i :=
    handleSlot_handleOf _ _ (inFile.trans_le h.slots_length_le)
  obtain ⟨-, length, -⟩ := h
  refine ⟨slot, ?_⟩
  rw [State.Live, slot, handleGen_handleOf, State.slot_of_getElem? hx]
  exact ⟨length ▸ inFile, pending, rfl⟩

/-- CANCEL of a PENDING slot's handle frees that slot (R100). -/
theorem exec_cancel_of_pending {s : State} (h : s.Inv) {i : Nat} {x : Slot} (hx : s.slots[i]? = some x)
    (pending : x.state = .pending) (handle : s.arg0 = handleOf x.gen i) :
    exec .cancel s = .next { s with
      slots := s.slots.set i x.released, res0 := 1#64, code := codeOk, lastOp := 0x08#8 } := by
  obtain ⟨slot, live⟩ := h.live_handleOf hx pending
  rw [← handle] at slot live
  rw [exec, execCancel_of_live live, slot, State.release, State.slot_of_getElem? hx]
  rfl

/-- Settles O39: the TICK leaves its due slot FREE, so the handle is no longer live; the CANCEL leaves the slot FREE, so
it is not due. -/
theorem cancelRacesFiringTick : Obligations.CancelRacesFiringTick := by
  intro raw s i x h hx pending handle reached
  have due : x.due (s.advance raw).uptime := by
    refine ⟨pending, ?_⟩
    rw [BitVec.le_def, State.advance_uptime, saturatingAdd_toNat]
    exact Nat.le_min.2 ⟨reached, Nat.le_pred_of_lt x.deadline.isLt⟩
  obtain ⟨slot, -⟩ := h.live_handleOf hx pending
  rw [handle]
  constructor
  · have freed := (State.fire_slot (s := s.advance raw) hx).trans (Slot.fired_of_due due)
    have count := State.fire_countP_handle (s := s.advance raw) h.slots_length_le hx
    rw [if_pos due] at count
    have not_live : ¬(s.advance raw).fire.Live s.arg0 := by
      rw [State.Live, handle, slot, freed]
      exact fun ⟨_, still_pending, _⟩ => nomatch still_pending
    exact ⟨_, _, exec_tick raw s, exec_cancel_of_not_live not_live, rfl, count⟩
  · have freed : (s.slots.set i x.released)[i]? = some x.released :=
      List.getElem?_set_self (List.getElem?_eq_some_iff.1 hx).1
    have not_due (u : Word) : ¬x.released.due u := fun due => nomatch due.1
    refine ⟨_, _, exec_cancel_of_pending h hx pending handle, rfl, exec_tick raw _, ?_⟩
    refine (State.fire_countP_handle (x := x.released) ?_ freed).trans ?_
    · exact List.length_set.trans_le h.slots_length_le
    · rw [if_neg (not_due _)]
      rfl

/-- A WAIT that ends in OK has registered its target and ARG1 in one slot (R93, R98, R99). -/
theorem exec_wait_ok {i : Instr} {s t : State} (hi : i = .waitUntil ∨ i = .waitFor) (ht : exec i s = .next t)
    (ok : t.code = codeOk) : ∃ k x, s.slots[k]? = some x ∧ t.res0 = handleOf (nextGen x.gen) k ∧
      t.slots = s.slots.set k ⟨.pending, t.res1, s.arg1, nextGen x.gen⟩ := by
  have body : ∃ op target, t = s.wait op target s.arg1 := by
    rcases hi with rfl | rfl
    · exact ⟨_, _, eq_of_exec_eq_next ht (exec_waitUntil s)⟩
    · rcases exec_waitFor_cases ht with ⟨-, code⟩ | ⟨-, rfl⟩
      · rw [code] at ok
        exact absurd ok (by decide)
      · exact ⟨_, _, rfl⟩
  obtain ⟨op, target, rfl⟩ := body
  rcases s.wait_cases op target s.arg1 with ⟨-, h⟩ | ⟨-, -, h⟩ | ⟨-, k, x, hx, -, -, h⟩ <;> rw [h] at ok ⊢
  · exact absurd ok (by decide : codeReady ≠ codeOk)
  · exact absurd ok (by decide : codeNoSlot ≠ codeOk)
  · exact ⟨k, x, hx, rfl, rfl⟩

/-- Settles O37: the WAIT leaves a PENDING slot with the handle it returns, in a state that meets the invariant, and
CANCEL frees that slot. -/
theorem cancelTakesBackRegistration : Obligations.CancelTakesBackRegistration := by
  intro i s t h hi ht ok
  have wakeLog : t.wakeLog = s.wakeLog := by
    obtain ⟨-, -, keeps⟩ := onlyTickAdvancesTime i s t ht
    obtain ⟨-, -, same⟩ := keeps (by rcases hi with rfl | rfl <;> exact fun _ => nofun)
    exact same
  obtain ⟨k, x, hx, handle, slots⟩ := exec_wait_ok hi ht ok
  have inFile : k < s.slots.length := (List.getElem?_eq_some_iff.1 hx).1
  have slot : handleSlot t.res0 = k := by
    rw [handle, handleSlot_handleOf _ _ (inFile.trans_le h.slots_length_le)]
  have gen : handleGen t.res0 = nextGen x.gen := by
    rw [handle, handleGen_handleOf]
  have registered : t.slots[k]? = some ⟨.pending, t.res1, s.arg1, nextGen x.gen⟩ := by
    rw [slots, List.getElem?_set_self inFile]
  have gen_ne := nextGen_ne_zero x.gen
  have inv := h.exec ht
  have cancelled := exec_cancel_of_pending (s := { t with arg0 := t.res0 }) inv registered rfl handle
  rw [slot, gen]
  refine ⟨fun zero => gen_ne ?_, gen_ne, registered, _, cancelled, rfl, ?_, fun j hj => ⟨?_, ?_⟩, wakeLog⟩
  · rw [← gen, zero]
    rfl
  · exact List.getElem?_set_self (List.getElem?_eq_some_iff.1 registered).1
  · exact List.getElem?_set_ne hj.symm
  · rw [slots, List.getElem?_set_ne hj.symm]

end Sys2Proof.Machine
end

section
/-! SUPPORT. Every command finishes (R23), with the codes of its row of the outcome table (R104). -/

namespace Sys2Proof.Machine

/-- WAIT_UNTIL's body writes LAST_OP with the opcode byte on every path (R98). -/
theorem State.wait_lastOp (s : State) (op : Byte) (target waker : Word) : (s.wait op target waker).lastOp = op := by
  rcases s.wait_cases op target waker with ⟨-, h⟩ | ⟨-, -, h⟩ | ⟨-, i, x, -, -, -, h⟩ <;> rw [h]
  · rfl
  · rfl
  · rfl

/-- Every command writes LAST_OP with word[7:0] (R10, R23). -/
theorem command_lastOp {w : Half} {s t : State} (h : exec (decodeCommand w) s = .next t) : t.lastOp = w.setWidth 8 := by
  rcases decodeCommand_cases w with ⟨rfl, hw⟩ | ⟨rfl, hw⟩ | ⟨rfl, hw⟩ | ⟨rfl, hw⟩ | ⟨rfl, hw⟩ | ⟨rfl, hw⟩ |
    ⟨rfl, hw⟩ | ⟨rfl, hw⟩ | hw <;> rw [hw] at h
  · exact congrArg State.lastOp (eq_of_exec_eq_next h (exec_now s))
  · exact congrArg State.lastOp (eq_of_exec_eq_next h (exec_elapsed s))
  · exact congrArg State.lastOp (eq_of_exec_eq_next h (execToDatetime_eq s _ rfl))
  · cases hf : fromFields s.cfg ⟨s.arg0, s.arg1, s.arg2⟩ with
    | none => exact congrArg State.lastOp (eq_of_exec_eq_next h (exec_fromDatetime_of_none hf))
    | some r => exact congrArg State.lastOp (eq_of_exec_eq_next h (exec_fromDatetime_of_some hf))
  · exact congrArg State.lastOp (eq_of_exec_eq_next h (execClockNow_eq s _ rfl))
  · obtain rfl := eq_of_exec_eq_next h (exec_waitUntil s)
    exact s.wait_lastOp _ _ _
  · rcases Nat.lt_or_ge max64 (s.uptime.toNat + s.arg0.toNat) with overflow | fits
    · exact congrArg State.lastOp (eq_of_exec_eq_next h (exec_waitFor_of_overflow overflow))
    · obtain rfl := eq_of_exec_eq_next h (exec_waitFor_of_fits fits)
      exact s.wait_lastOp _ _ _
  · by_cases live : s.Live s.arg0
    · exact congrArg State.lastOp (eq_of_exec_eq_next h (execCancel_of_live live))
    · exact congrArg State.lastOp (eq_of_exec_eq_next h (exec_cancel_of_not_live live))
  · exact congrArg State.lastOp (eq_of_exec_eq_next h (exec_illegalCommand w s))

/-- Settles O51: every command completes, with its LAST_OP, a listed code and the shape of a command's effect. -/
theorem everyCommandFinishes : Obligations.EveryCommandFinishes := by
  intro w s
  obtain ⟨t, h⟩ := exec_decodeCommand_completes w s
  have effect := command_effect h
  exact ⟨t, h, command_lastOp h, effect.code_mem, effect.shape⟩

/-- Settles O52: the codes of each command by the outcomes of its rule. -/
theorem outcomesOfEachCommand : Obligations.OutcomesOfEachCommand := by
  refine fun i s t h => ⟨fun hi => exec_code_eq_ok hi h, ?_, ?_, ?_⟩
  · rintro rfl
    exact exec_fromDatetime_code h
  · rintro rfl
    obtain rfl := eq_of_exec_eq_next h (exec_waitUntil s)
    exact s.wait_code _ _ _
  · rintro rfl
    rcases exec_waitFor_cases h with ⟨-, invalid⟩ | ⟨-, rfl⟩
    · exact .inr (.inr (.inl invalid))
    · exact (s.wait_code _ _ _).imp_right (·.imp_right .inr)

end Sys2Proof.Machine
end

section
/-! SUPPORT. The window in halves and in bytes (R37, R39, R43), and the stores outside it (R44). -/

namespace Sys2Proof.Machine

/-- A 4-byte read of one half of a register replies with that half (R39, R43). -/
theorem exec_ld32_register (off : Nat) (half : HalfSel) {s : State} {v : Word} (ha : off % 8 = 0)
    (hv : s.windowReg (off / 8) = some v) :
    exec (.ld32 (off + halfOffset half)) s = .next (s.reply (.half (selectHalf half v))) := by
  have slot : (off + halfOffset half) / 8 = off / 8 := by
    cases half <;> simp only [halfOffset] <;> omega
  have named : halfOf (off + halfOffset half) = half := by
    cases half
    · exact if_pos ha
    · exact if_neg (by simp only [halfOffset]; omega)
  have aligned : AlignedAccess (off + halfOffset half) 4 :=
    ⟨.inl rfl, by cases half <;> simp only [halfOffset] <;> omega⟩
  rw [← slot] at hv
  have reply := State.memRead_of_readable aligned ((s.exists_windowReg_iff _).1 ⟨v, hv⟩) hv
  rw [named] at reply
  exact busLoad_of_memRead_eq_some reply

/-- Settles O42: both halves are of the one register in the 8-byte slot. -/
theorem halfReadsMakeTheWhole : Obligations.HalfReadsMakeTheWhole := by
  intro s off hoff
  obtain ⟨ha, hr⟩ : off % 8 = 0 ∧ Readable off :=
    (by decide : ∀ off ∈ readableOffsets, off % 8 = 0 ∧ Readable off) off hoff
  obtain ⟨v, hv⟩ := (s.exists_windowReg_iff off).2 hr
  refine ⟨v, selectHalf .lo v, selectHalf .hi v, exec_ld64_register off ha hv, exec_ld32_register off .lo ha hv,
    exec_ld32_register off .hi ha hv, ?_⟩
  rw [selectHalf_lo_toNat, selectHalf_hi_toNat, Nat.mod_add_div]

/-- Settles O16: the halves at offsets 0x00 and 0x04 are UPTIME's. -/
theorem uptimeHalvesReadLowAndHigh : Obligations.UptimeHalvesReadLowAndHigh :=
  ⟨rfl, rfl, fun s => ⟨selectHalf .lo s.uptime, selectHalf .hi s.uptime, exec_ld32_register 0x00 .lo rfl rfl,
    exec_ld32_register 0x00 .hi rfl rfl, selectHalf_lo_toNat s.uptime, selectHalf_hi_toNat s.uptime⟩⟩

/-- Byte `i` of a half is the register's byte at the half's offset plus `i` (R39). -/
theorem byteOf_selectHalf (half : HalfSel) (v : Word) {i : Nat} (hi : i < 4) :
    byteOf v (halfOffset half + i) = (selectHalf half v).extractLsb' (8 * i) 8 := by
  apply BitVec.eq_of_toNat_eq
  have := v.isLt
  cases half <;>
    (simp only [byteOf, BitVec.extractLsb'_toNat, selectHalf_lo_toNat, selectHalf_hi_toNat, halfOffset,
      Nat.shiftRight_eq_div_pow]
     interval_cases i <;> omega)

/-- The window shows, at an offset within an 8-byte slot, that byte of the slot's register (R39). -/
theorem State.windowByte_of_windowReg {s : State} {a : Nat} {v : Word} (hv : s.windowReg (a / 8) = some v) :
    s.windowByte a = some (byteOf v (a % 8)) := by
  rw [State.windowByte, hv]
  rfl

/-- Settles O43: bytes `off + i` lie in the 8-byte slot of `off`, at `i` past the register's or the half's first. -/
theorem windowBytesAreLittleEndian : Obligations.WindowBytesAreLittleEndian := by
  intro s off i
  refine ⟨fun v hread hi => ?_, fun h hread hi => ?_⟩
  · obtain ⟨⟨-, ha⟩, -, v', hv, reply⟩ := State.memRead_eq_some hread
    obtain rfl : v = v' := Reply.word.inj reply
    rw [show off / 8 = (off + i) / 8 by omega] at hv
    rw [State.windowByte_of_windowReg hv, show (off + i) % 8 = i by omega]
    rfl
  · obtain ⟨⟨-, ha⟩, -, v, hv, reply⟩ := State.memRead_eq_some hread
    obtain rfl : h = selectHalf (halfOf off) v := Reply.half.inj reply
    have byte : (off + i) % 8 = halfOffset (halfOf off) + i := by
      unfold halfOf
      split <;> simp only [halfOffset] <;> omega
    rw [show off / 8 = (off + i) / 8 by omega] at hv
    rw [State.windowByte_of_windowReg hv, byte, byteOf_selectHalf _ v hi]

/-- Settles O48: neither CMD nor an ARG register takes the store, and the row ST (other) takes none. -/
theorem otherStoresAreBusErrors : Obligations.OtherStoresAreBusErrors := fun _ _ v s =>
  ⟨fun hcmd harg => exec_decode_store_of_not_writable hcmd harg v s, rfl⟩

/-- Settles O50: BASE is a multiple of 8, so of 4, and does not change the remainder of an address. -/
theorem busAlignmentIsOffsetAlignment : Obligations.BusAlignmentIsOffsetAlignment := by
  intro c addr off n hc hoff hn
  obtain ⟨-, -, -, -, -, -, -, base⟩ := c.legal_iff.1 hc
  obtain ⟨above, rfl⟩ : c.base ≤ addr ∧ addr - c.base = off := by
    rw [Config.offsetOf] at hoff
    split at hoff
    · next above => exact ⟨above, Option.some.inj hoff⟩
    · exact nomatch hoff
  rcases hn with rfl | rfl <;> omega

end Sys2Proof.Machine
end
